-- ==== Sys2Proof/Word.lean ====
section
/-! DEFINITION. The word types of the block (00_scope.md R7: every value is an unsigned value of a stated width). -/

namespace Sys2Proof

/-- A byte (R7). -/
abbrev Byte := BitVec 8

/-- The width of S1 and of S2 (R6 `S_W`). -/
abbrev Half := BitVec 16

/-- The width of CRC, DLEN, WCNT, tags, lengths and status registers (R6, R10, R15). -/
abbrev Word := BitVec 32

/-- The width of the output cursor OLEN and of the capacity OBUF_CAP (R6 `OLEN_W`, D10). -/
abbrev Offset := BitVec 64

/-- A command word (R46: exactly 72 bits). -/
abbrev CmdWord := BitVec 72

end Sys2Proof
end

