-- ==== Sys2Proof/Syntax.lean ====
section
/-! DEFINITION. The eleven commands of the command set CFC-1 (30_encoding.md R45, R48), one constructor per row of
spec/opcode_table.json. -/

namespace Sys2Proof

/-- A command with its operands. An operand has the width R48 gives it and every value of it is accepted (R48, D21). -/
inductive Instr where
  /-- `CLR`, R80. -/
  | clr
  /-- `RAWB byte`, R81. -/
  | rawb (byte : Byte)
  /-- `CRCINIT`, R63. -/
  | crcinit
  /-- `CRCB byte`, R64. -/
  | crcb (byte : Byte)
  /-- `ADLINIT`, R72. -/
  | adlinit
  /-- `ADLB byte`, R73. -/
  | adlb (byte : Byte)
  /-- `BEGCH tag, len`, R83. -/
  | begch (tag len : Word)
  /-- `WRB byte`, R82. -/
  | wrb (byte : Byte)
  /-- `WRAB byte`, R84. -/
  | wrab (byte : Byte)
  /-- `WRADL`, R85. -/
  | wradl
  /-- `ENDCH`, R86. -/
  | endch
deriving DecidableEq, Repr

end Sys2Proof
end

