-- ==== Sys2Proof/WellFormed.lean ====
section
/-! DEFINITION. Which field triples of a command word are a command at all (30_encoding.md R46, R47, R50). -/

namespace Sys2Proof

/-- The three fields of a command word (R46). -/
structure RawCommand where
  /-- bits 71:64, the opcode. -/
  op : Byte
  /-- bits 63:32, the first operand. -/
  a : Word
  /-- bits 31:0, the second operand. -/
  b : Word
deriving DecidableEq, Repr

/-- The three formats of R47. -/
inductive Format where
  /-- no operand: A and B must be zero. -/
  | n
  /-- one byte operand in B[7:0]: A and B[31:8] must be zero. -/
  | b
  /-- tag in A and length in B: no must-be-zero bits. -/
  | tl
deriving DecidableEq, Repr

/-- The format-N opcodes of R47, R49: `CLR`, `CRCINIT`, `ADLINIT`, `WRADL`, `ENDCH`. -/
def formatNOpcodes : List Byte := [0x01#8, 0x10#8, 0x20#8, 0x33#8, 0x34#8]

/-- The format-B opcodes of R47, R49: `RAWB`, `CRCB`, `ADLB`, `WRB`, `WRAB`. -/
def formatBOpcodes : List Byte := [0x02#8, 0x11#8, 0x21#8, 0x31#8, 0x32#8]

/-- The format of an opcode; none for the 245 unassigned ones (R49, R50). -/
def formatOfOpcode (op : Byte) : Option Format :=
  if op ∈ formatNOpcodes then some .n
  else if op ∈ formatBOpcodes then some .b
  else if op = 0x30#8 then some .tl
  else none

/-- A field triple is a command exactly when its opcode is assigned and its must-be-zero bits are zero (R47, R50). -/
def RawCommand.wellFormed (c : RawCommand) : Bool :=
  match formatOfOpcode c.op with
  | none => false
  | some .n => c.a == 0#32 && c.b == 0#32
  | some .b => c.a == 0#32 && c.b.extractLsb' 8 24 == 0#24
  | some .tl => true

end Sys2Proof
end

