-- ==== Sys2Proof/Decode.lean ====
section
/-! DEFINITION. Decoding and encoding of command words (30_encoding.md R46 to R50; spec/opcode_table.json). -/

namespace Sys2Proof

/-- Why a word is illegal (R50). -/
inductive DecodeError where
  /-- OP is none of the eleven opcodes. -/
  | unassignedOpcode (op : Byte)
  /-- a one in a must-be-zero position of a format-N or format-B word. -/
  | nonzeroOperand (op : Byte)
deriving DecidableEq, Repr

/-- The outcome of decoding: a command with its operands, or illegal with the reason (R50). -/
inductive Decoded where
  | command (i : Instr)
  | illegal (e : DecodeError)
deriving DecidableEq, Repr

/-- The fields OP, A, B of a word (R46). -/
def splitWord (w : CmdWord) : RawCommand :=
  ⟨w.extractLsb' 64 8, w.extractLsb' 32 32, w.extractLsb' 0 32⟩

/-- The word with the given fields: `OP || A || B` (R46). -/
def joinWord (c : RawCommand) : CmdWord := c.op ++ c.a ++ c.b

/-- A format-N word (R47). -/
def decodeN (c : RawCommand) (i : Instr) : Decoded :=
  if c.a = 0#32 ∧ c.b = 0#32 then .command i else .illegal (.nonzeroOperand c.op)

/-- A format-B word; its operand is B[7:0] (R47, R48). -/
def decodeB (c : RawCommand) (i : Byte → Instr) : Decoded :=
  if c.a = 0#32 ∧ c.b.extractLsb' 8 24 = 0#24 then .command (i (c.b.extractLsb' 0 8))
  else .illegal (.nonzeroOperand c.op)

/-- Decoding by the three fields (R49, R50). -/
def decodeFields (c : RawCommand) : Decoded :=
  if c.op = 0x01#8 then decodeN c .clr
  else if c.op = 0x02#8 then decodeB c .rawb
  else if c.op = 0x10#8 then decodeN c .crcinit
  else if c.op = 0x11#8 then decodeB c .crcb
  else if c.op = 0x20#8 then decodeN c .adlinit
  else if c.op = 0x21#8 then decodeB c .adlb
  else if c.op = 0x30#8 then .command (.begch c.a c.b)
  else if c.op = 0x31#8 then decodeB c .wrb
  else if c.op = 0x32#8 then decodeB c .wrab
  else if c.op = 0x33#8 then decodeN c .wradl
  else if c.op = 0x34#8 then decodeN c .endch
  else .illegal (.unassignedOpcode c.op)

/-- Decoding is a total function from 72-bit words (R50). -/
def decode (w : CmdWord) : Decoded := decodeFields (splitWord w)

/-- A format-N command's fields (R47). -/
def fieldsN (op : Byte) : RawCommand := ⟨op, 0#32, 0#32⟩

/-- A format-B command's fields: the byte in B[7:0] (R47, R48). -/
def fieldsB (op byte : Byte) : RawCommand := ⟨op, 0#32, byte.setWidth 32⟩

/-- The fields of a command's word (R47 to R49). -/
def Instr.fields : Instr → RawCommand
  | .clr => fieldsN 0x01#8
  | .rawb b => fieldsB 0x02#8 b
  | .crcinit => fieldsN 0x10#8
  | .crcb b => fieldsB 0x11#8 b
  | .adlinit => fieldsN 0x20#8
  | .adlb b => fieldsB 0x21#8 b
  | .begch tag len => ⟨0x30#8, tag, len⟩
  | .wrb b => fieldsB 0x31#8 b
  | .wrab b => fieldsB 0x32#8 b
  | .wradl => fieldsN 0x33#8
  | .endch => fieldsN 0x34#8

/-- The 72-bit word of a command (R46 to R49). -/
def encode (i : Instr) : CmdWord := joinWord i.fields

/-- The mnemonic of a command (R49). -/
def Instr.mnemonic : Instr → String
  | .clr => "CLR"
  | .rawb _ => "RAWB"
  | .crcinit => "CRCINIT"
  | .crcb _ => "CRCB"
  | .adlinit => "ADLINIT"
  | .adlb _ => "ADLB"
  | .begch _ _ => "BEGCH"
  | .wrb _ => "WRB"
  | .wrab _ => "WRAB"
  | .wradl => "WRADL"
  | .endch => "ENDCH"

/-- One row of the opcode map (R49). -/
structure OpcodeRow where
  mnemonic : String
  mask : CmdWord
  pattern : CmdWord
deriving DecidableEq, Repr

/-- The opcode map, as R49 lists it (`pattern` is the column "match"). -/
def opcodeMap : List OpcodeRow :=
  [⟨"CLR", 0xFFFFFFFFFFFFFFFFFF#72, 0x010000000000000000#72⟩,
   ⟨"RAWB", 0xFFFFFFFFFFFFFFFF00#72, 0x020000000000000000#72⟩,
   ⟨"CRCINIT", 0xFFFFFFFFFFFFFFFFFF#72, 0x100000000000000000#72⟩,
   ⟨"CRCB", 0xFFFFFFFFFFFFFFFF00#72, 0x110000000000000000#72⟩,
   ⟨"ADLINIT", 0xFFFFFFFFFFFFFFFFFF#72, 0x200000000000000000#72⟩,
   ⟨"ADLB", 0xFFFFFFFFFFFFFFFF00#72, 0x210000000000000000#72⟩,
   ⟨"BEGCH", 0xFF0000000000000000#72, 0x300000000000000000#72⟩,
   ⟨"WRB", 0xFFFFFFFFFFFFFFFF00#72, 0x310000000000000000#72⟩,
   ⟨"WRAB", 0xFFFFFFFFFFFFFFFF00#72, 0x320000000000000000#72⟩,
   ⟨"WRADL", 0xFFFFFFFFFFFFFFFFFF#72, 0x330000000000000000#72⟩,
   ⟨"ENDCH", 0xFFFFFFFFFFFFFFFFFF#72, 0x340000000000000000#72⟩]

/-- The word is the command of this row (R49: `(w & mask) = match`). -/
abbrev OpcodeRow.covers (r : OpcodeRow) (w : CmdWord) : Prop := w &&& r.mask = r.pattern

/-- What the decoder reads from the low `nbits` bits of `w`, the other bits zero, numbered as
spec/opcode_table.json numbers them (R46: a command is one 72-bit value, so there is one word and no byte order). -/
def decodeTableWord (nbits w : Nat) : Option Instr :=
  match decode (BitVec.ofNat 72 (w % 2 ^ nbits)) with
  | .command i => some i
  | .illegal _ => none

end Sys2Proof
end

