-- ==== Sys2Proof/Machine/Engines.lean ====
section
/-! DEFINITION. The pure functions of the two checksum engines (40_crc.md R60 to R62, 41_adler.md R70, R71). -/

namespace Sys2Proof.Machine

/-- `CRC_INIT`, all ones (R6). -/
def crcInit : Word := 0xFFFFFFFF#32

/-- `CRC_POLY`, the reflected polynomial (R6, R60; the spec's general knowledge G1, log entry 7). -/
def crcPoly : Word := 0xEDB88320#32

/-- One step of the generation rule of R60: `(g >> 1) ^ 0xEDB88320` when `g[0] = 1`, else `g >> 1`. -/
def crcBitStep (g : Word) : Word :=
  if g.getLsbD 0 then (g >>> 1) ^^^ crcPoly else g >>> 1

/-- `k` steps of the generation rule of R60. -/
def crcBitSteps : Nat → Word → Word
  | 0, g => g
  | k + 1, g => crcBitSteps k (crcBitStep g)

/-- `TBL[n]`: eight steps from `zext_32(n)` (R60); a constant of the block (R19). -/
def tbl (n : Byte) : Word := crcBitSteps 8 (n.setWidth 32)

/-- `crc_step(c, b) = TBL[(c ^ zext_32(b))[7:0]] ^ (c >> 8)` (R61). -/
def crcStep (c : Word) (b : Byte) : Word :=
  tbl ((c ^^^ b.setWidth 32).extractLsb' 0 8) ^^^ (c >>> 8)

/-- `crc_fold(c, s)`: `crc_step` from left to right (R62). -/
def crcFold (c : Word) : List Byte → Word
  | [] => c
  | b :: bs => crcFold (crcStep c b) bs

/-- The CRC of a sequence: `~crc_fold(0xFFFFFFFF, s)` (R62). -/
def crcOf (bs : List Byte) : Word := ~~~(crcFold crcInit bs)

/-- `ADLER_MOD` (R6). -/
def adlerMod : Nat := 65521

/-- `adler_step(s1, s2, b)`: sums over the naturals, modulo 65521, the second with the NEW first (R70). The spec
defines it for `s1, s2 < 65521`, which every reachable valid pair meets; elsewhere the same formula is used (log
entry 9). -/
def adlerStep (p : Half × Half) (b : Byte) : Half × Half :=
  let t1 := (p.1.toNat + b.toNat) % adlerMod
  let t2 := (p.2.toNat + t1) % adlerMod
  (BitVec.ofNat 16 t1, BitVec.ofNat 16 t2)

/-- `adler_fold((s1, s2), s)`: `adler_step` from left to right (R71). -/
def adlerFold (p : Half × Half) : List Byte → Half × Half
  | [] => p
  | b :: bs => adlerFold (adlerStep p b) bs

/-- `ADLER_INIT` (R6): s1 = 1, s2 = 0. -/
def adlerInit : Half × Half := (1#16, 0#16)

end Sys2Proof.Machine
end

