-- ==== Sys2Proof/Machine/Operands.lean ====
section
/-! DEFINITION. How multi-byte values are cut into bytes (00_scope.md R7, 20_memory.md R32). -/

namespace Sys2Proof.Machine

/-- `BE32(v)`: `v[31:24], v[23:16], v[15:8], v[7:0]` (R7, R32). -/
def be32 (v : Word) : List Byte :=
  [v.extractLsb' 24 8, v.extractLsb' 16 8, v.extractLsb' 8 8, v.extractLsb' 0 8]

/-- `LE16(v)`: `v[7:0], v[15:8]` (R7). -/
def le16 (v : Half) : List Byte := [v.extractLsb' 0 8, v.extractLsb' 8 8]

/-- The combined value `(zext_32(s2) << 16) | zext_32(s1)` (R71). -/
def combined (s1 s2 : Half) : Word := (s2.setWidth 32 <<< 16) ||| s1.setWidth 32

/-- The number of bytes a command appends when it does not fault, one of 0, 1, 4, 8 (R12), is checked against the
capacity over the naturals: `used + n > cap` (R33). -/
def exceeds (used : Nat) (n : Nat) (cap : Nat) : Bool := decide (used + n > cap)

end Sys2Proof.Machine
end

