-- ==== Sys2Proof/Config.lean ====
section
/-! DEFINITION. What an implementation fixes, and the free values (00_scope.md R6; 92_eei_decisions.md, parameters left OPEN). -/

namespace Sys2Proof.Config

/-- The default of the OPEN parameter `OBUF_CAP` (R6, D10): `2^64 - 1`. The capacity of an instance is the field
`obufCap` of `State`, so that statements hold for every capacity (log entry 4). -/
def obufCapDefault : Offset := 0xFFFFFFFFFFFFFFFF#64

/-- The default of the OPEN host constant `CONTAINER_HDR` (R6, R101, D24): `78 01`. The host sequences take the two
bytes as an argument (log entry 8). -/
def containerHdrDefault : Byte × Byte := (0x78#8, 0x01#8)

/-- The free value of the n-th unspecified status read (R17, U1, U2: a fresh draw on each read). It has no body:
nothing can be proved of it (log entry 5). -/
opaque freeWord : Nat → Word

end Sys2Proof.Config
end

