-- ==== Sys2Proof/Machine/State.lean ====
section
/-! DEFINITION. The state of one instance of the block (10_state.md), its reset value, and the reasons a step can stop. -/

namespace Sys2Proof.Machine

/-- The five causes of a fault of the block (60_exceptions.md R131), in the priority order of R133. Taking a fault is
a NEXT state (R134), not an `Outcome.fault`. -/
inductive Cause where
  /-- `E_ILLEGAL`: the word is not a command. -/
  | illegal
  /-- `E_PROTO`: the command is not allowed in the present chunk state. -/
  | proto
  /-- `E_UNINIT`: an accumulator is used before anything initialised it. -/
  | uninit
  /-- `E_LEN`: the payload written does not agree with the declared length. -/
  | len
  /-- `E_OVF`: the output buffer has no room. -/
  | ovf
deriving DecidableEq, Repr

/-- One action of the host on the ports of the block (92_eei_decisions.md D2, D34). -/
inductive HostEvent where
  /-- a command word on `cmd` (R12, R46). -/
  | cmd (w : CmdWord)
  /-- the reset input `rst` (R150). -/
  | rst
  /-- a read of status register `n` through `sr_num`/`sr_data` (R15). -/
  | statusRead (n : BitVec 3)
  /-- a read of the output buffer through `rd_addr`/`rd_data` (R36). -/
  | bufRead (addr : Offset)
deriving DecidableEq, Repr

/-- All the state of one instance: the registers of R10, the flags of R13, CAUSE of R14 and OBUF of R18 (R21: there is
no other), the instance's OPEN parameter, and the model's own fields for the ports. -/
structure State where
  /-- CRC: the running CRC, uncomplemented (R10). -/
  crc : Word
  /-- S1: first half of the additive checksum (R10). -/
  s1 : Half
  /-- S2: second half of the additive checksum (R10). -/
  s2 : Half
  /-- DLEN: the declared payload length of the chunk most recently begun (R10). -/
  dlen : Word
  /-- WCNT: the payload bytes written to the chunk most recently begun (R10). -/
  wcnt : Word
  /-- OLEN: the output cursor (R10). -/
  olen : Offset
  /-- CHOPEN: a chunk is open (R13). -/
  chopen : Bool
  /-- CRCV: CRC holds a value that an initialisation put there (R13). -/
  crcv : Bool
  /-- ADLV: S1, S2 hold values that an initialisation put there (R13). -/
  adlv : Bool
  /-- FAULT: the block has faulted and is stopped (R13); the level output `fault` (R134). -/
  fault : Bool
  /-- CAUSE: the cause code of the fault (R14). -/
  cause : BitVec 4
  /-- OBUF: the output buffer, as (offset, byte) cells with strictly rising offsets; an offset without a cell holds
  nothing (R18, R20; log entry 10). -/
  obuf : List Host.Cell
  /-- OBUF_CAP: the instance's capacity, an OPEN parameter that nothing writes (R6, R33, D10; log entry 4). -/
  obufCap : Offset
  /-- The model's own: what the host does next on the ports, oldest first (log entry 1). -/
  port : List HostEvent
  /-- The model's own: the value `sr_data` last answered (log entry 11). -/
  srData : Option Word
  /-- The model's own: the byte `rd_data` last answered (log entry 11). -/
  rdData : Option Byte
  /-- The model's own: how many free values have been drawn (R17, U1, U2; log entry 5). -/
  draws : Nat
deriving DecidableEq, Repr

/-- The reasons a step can end in `Outcome.fault`. The faults of the block are not among them: they are next states
(R134). -/
inductive Fault where
  /-- Raised by a buffer read below OLEN at an offset where OBUF holds no byte: no state that a run reaches
  (`Sys2Proof.Safety.BufferDense`). Safe: the model stops where the block has no such state (log entry 14). -/
  | bufferHole (addr : Offset)
deriving DecidableEq, Repr

/-- The reasons a step can end in `Outcome.refused`. -/
inductive Refusal where
  /-- Raised by no arm: every command has its meaning. Safe. -/
  | notModelled (mnemonic : String)
  /-- Raised by a buffer read at or above OLEN, which R36 says the model refuses (U4). Safe. -/
  | readBeyondOlen (addr : Offset)
deriving DecidableEq, Repr

/-- The state right after reset (R23, R150). CRC, S1 and S2 have no specified value there: the model names 0, which
CRCV and ADLV keep out of sight (DESIGN CHOICE, log entry 2). The capacity is the spec's default (log entry 4); no
host event is waiting (log entry 1). -/
def State.reset : State where
  crc := 0#32
  s1 := 0#16
  s2 := 0#16
  dlen := 0#32
  wcnt := 0#32
  olen := 0#64
  chopen := false
  crcv := false
  adlv := false
  fault := false
  cause := 0#4
  obuf := []
  obufCap := Config.obufCapDefault
  port := []
  srData := none
  rdData := none
  draws := 0

end Sys2Proof.Machine
end

