-- ==== Sys2Proof/Machine/Flags.lean ====
section
/-! DEFINITION. Cause codes, the checks of the commands, and the status registers (60_exceptions.md R131, R133;
10_state.md R15 to R17). -/

namespace Sys2Proof.Machine

/-- The cause codes (R131). -/
def Cause.code : Cause → BitVec 4
  | .illegal => 1#4
  | .proto => 2#4
  | .uninit => 3#4
  | .len => 4#4
  | .ovf => 5#4

/-- The check of R33: fewer than `n` bytes of capacity remain. -/
def State.lacksRoom (s : State) (n : Nat) : Bool := exceeds s.olen.toNat n s.obufCap.toNat

/-- The check of `WRB` and `WRAB`: `WCNT = DLEN` (R82, R84). -/
def State.chunkFull (s : State) : Bool := s.wcnt == s.dlen

/-- The check of `WRADL`: `WCNT + n > DLEN` over the naturals (R85). -/
def State.lacksLength (s : State) (n : Nat) : Bool := exceeds s.wcnt.toNat n s.dlen.toNat

/-- The first check that fails, in the order of the list (R133). -/
def firstRaised : List (Bool × Cause) → Option Cause
  | [] => none
  | (fails, k) :: rest => if fails then some k else firstRaised rest

/-- Status register 0, `STATUS` (R16): bit 0 CHOPEN, 1 CRCV, 2 ADLV, 3 FAULT, bits 7:4 zero, bits 11:8 CAUSE, bits
31:12 zero. -/
def State.status (s : State) : Word :=
  0#20 ++ s.cause ++ 0#4 ++ BitVec.ofBool s.fault ++ BitVec.ofBool s.adlv ++ BitVec.ofBool s.crcv
    ++ BitVec.ofBool s.chopen

/-- What status register `n` reads (R16, R17); none where R17 calls the value unspecified. -/
def State.statusValue (s : State) (n : BitVec 3) : Option Word :=
  if n = 0#3 then some s.status
  else if n = 1#3 then (if s.crcv then some s.crc else none)
  else if n = 2#3 then (if s.adlv then some (combined s.s1 s.s2) else none)
  else if n = 3#3 then some s.dlen
  else if n = 4#3 then some s.wcnt
  else if n = 5#3 then some (s.olen.extractLsb' 0 32)
  else if n = 6#3 then some (s.olen.extractLsb' 32 32)
  else some 0#32

end Sys2Proof.Machine
end

