-- ==== Sys2Proof/Machine/Ops.lean ====
section
/-! DEFINITION. The shared operations: the output buffer (20_memory.md R30, R31), fault entry (60_exceptions.md R134),
the frame of every command (R133 to R135), the reset input (70_reset_and_hazards.md R150) and the two read ports
(10_state.md R15, 20_memory.md R36). -/

namespace Sys2Proof.Machine

/-- The byte at an offset, or nothing where no byte was ever appended (R18, R36). -/
def Memory.read : List Host.Cell → Nat → Option Byte
  | [], _ => none
  | (k, v) :: rest, a => if k = a then some v else Memory.read rest a

/-- `MemWrite(a, 1, b)` (R8): the cells stay sorted by offset, with one cell an offset. -/
def Memory.write : List Host.Cell → Nat → Byte → List Host.Cell
  | [], a, b => [(a, b)]
  | (k, v) :: rest, a, b =>
    if a < k then (a, b) :: (k, v) :: rest
    else if k = a then (a, b) :: rest
    else (k, v) :: Memory.write rest a b

/-- A byte sequence written from offset `a` on, the first byte lowest (R31). -/
def Memory.writeSeq (m : List Host.Cell) (a : Nat) : List Byte → List Host.Cell
  | [] => m
  | b :: bs => Memory.writeSeq (Memory.write m a b) (a + 1) bs

/-- The canonical form: strictly rising offsets. An offset with no cell reads as nothing, so no cell can equal it. -/
def Memory.wf : List Host.Cell → Bool
  | [] => true
  | [_] => true
  | (k, _) :: (l, v) :: rest => decide (k < l) && Memory.wf ((l, v) :: rest)

/-- `Append(b)`: `MemWrite(OLEN, 1, b); OLEN <- OLEN + 1` (R31). -/
def State.append (b : Byte) (s : State) : State :=
  { s with obuf := Memory.write s.obuf s.olen.toNat b, olen := s.olen + 1#64 }

/-- `AppendSeq(b0, ..., bk)`: the first byte at the lowest offset (R31). -/
def State.appendSeq : List Byte → State → State
  | [], s => s
  | b :: bs, s => State.appendSeq bs (s.append b)

/-- Emission into the open chunk: append, fold into CRC, count in WCNT (R82, R84, R85). -/
def State.emitCovered (bs : List Byte) (s : State) : State :=
  let t := s.appendSeq bs
  { t with crc := crcFold s.crc bs, wcnt := s.wcnt + BitVec.ofNat 32 bs.length }

/-- `(S1, S2) <- adler_step(S1, S2, byte)` (R73, R84). -/
def State.foldAdler (b : Byte) (s : State) : State :=
  { s with s1 := (adlerStep (s.s1, s.s2) b).1, s2 := (adlerStep (s.s1, s.s2) b).2 }

/-- Fault entry: `FAULT <- 1; CAUSE <- k`, and nothing else (R134). -/
def State.raise (k : Cause) (s : State) : State := { s with fault := true, cause := k.code }

/-- The frame of every command: ignored while FAULT = 1 (R135); else the first failing check raises its fault with no
other effect (R133, R134); else the command's effect. -/
def command (s : State) (checks : List (Bool × Cause)) (done : State) : Host.Outcome State Fault Refusal :=
  if s.fault then .next s
  else match firstRaised checks with
    | some k => .next (s.raise k)
    | none => .next done

/-- An illegal word: `E_ILLEGAL`, or ignored while FAULT = 1 (R50, R131, R135). -/
def illegalWord (s : State) : Host.Outcome State Fault Refusal := command s [(true, .illegal)] s

/-- The reset input: every piece of state as R23 says. CRC, S1 and S2 get the value `State.reset` names (log entries 2
and 3); the parameter OBUF_CAP and the model's own fields are not the block's state and stay. -/
def State.applyReset (s : State) : State :=
  { State.reset with
    obufCap := s.obufCap, port := s.port, srData := s.srData, rdData := s.rdData, draws := s.draws }

/-- A status read: no state of the block changes (R15); an unspecified value is a fresh draw (R17, R35, U1, U2). -/
def statusRead (n : BitVec 3) (s : State) : Host.Outcome State Fault Refusal :=
  match s.statusValue n with
  | some v => .next { s with srData := some v }
  | none => .next { s with srData := some (Config.freeWord s.draws), draws := s.draws + 1 }

/-- A buffer read: the byte below OLEN; at or above OLEN the read is refused (R36, U4). -/
def bufferRead (addr : Offset) (s : State) : Host.Outcome State Fault Refusal :=
  if addr.toNat < s.olen.toNat then
    match Memory.read s.obuf addr.toNat with
    | some b => .next { s with rdData := some b }
    | none => .fault (.bufferHole addr)
  else .refused (.readBeyondOlen addr)

/-- The state once the oldest waiting host event is taken off the port (log entry 1). -/
def State.takeEvent (s : State) : State := { s with port := s.port.tail }

end Sys2Proof.Machine
end

