-- ==== Sys2Proof/Machine/Adler.lean ====
section
/-! DEFINITION. The commands of the Adler engine, `ADLINIT` and `ADLB` (41_adler.md R72, R73). -/

namespace Sys2Proof.Machine

/-- `ADLINIT`: initialise the additive checksum; legal in every chunk state, no check (R72). -/
def execAdlinit (s : State) : Host.Outcome State Fault Refusal :=
  command s [] { s with s1 := adlerInit.1, s2 := adlerInit.2, adlv := true }

/-- `ADLB byte`: fold one byte into the additive checksum, with no output (R73). -/
def execAdlb (byte : Byte) (s : State) : Host.Outcome State Fault Refusal :=
  command s [(!s.adlv, .uninit)] (s.foldAdler byte)

end Sys2Proof.Machine
end

