-- ==== Sys2Proof/Machine/Buffer.lean ====
section
/-! DEFINITION. The buffer commands `CLR` and `RAWB` (42_framer.md R80, R81). -/

namespace Sys2Proof.Machine

/-- `CLR`: discard the output buffer; the accumulators and flags stay (R80). -/
def execClr (s : State) : Host.Outcome State Fault Refusal :=
  command s [(s.chopen, .proto)] { s with olen := 0#64, obuf := [] }

/-- `RAWB byte`: append one byte that no checksum covers (R81). -/
def execRawb (byte : Byte) (s : State) : Host.Outcome State Fault Refusal :=
  command s [(s.chopen, .proto), (s.lacksRoom 1, .ovf)] (s.append byte)

end Sys2Proof.Machine
end

