-- ==== Sys2Proof/Machine/Crc.lean ====
section
/-! DEFINITION. The commands of the CRC engine, `CRCINIT` and `CRCB` (40_crc.md R63, R64). -/

namespace Sys2Proof.Machine

/-- `CRCINIT`: initialise the running CRC (R63). -/
def execCrcinit (s : State) : Host.Outcome State Fault Refusal :=
  command s [(s.chopen, .proto)] { s with crc := crcInit, crcv := true }

/-- `CRCB byte`: fold one byte into the running CRC, with no output (R64). -/
def execCrcb (byte : Byte) (s : State) : Host.Outcome State Fault Refusal :=
  command s [(s.chopen, .proto), (!s.crcv, .uninit)] { s with crc := crcStep s.crc byte }

end Sys2Proof.Machine
end

