-- ==== Sys2Proof/Machine/Framer.lean ====
section
/-! DEFINITION. The chunk commands `BEGCH`, `WRB`, `WRAB`, `WRADL`, `ENDCH` (42_framer.md R82 to R86). -/

namespace Sys2Proof.Machine

/-- `BEGCH tag, len`: open a chunk: length and tag go to the buffer, the tag alone into a fresh CRC (R83). -/
def execBegch (tag len : Word) (s : State) : Host.Outcome State Fault Refusal :=
  command s [(s.chopen, .proto), (s.lacksRoom 8, .ovf)]
    { s.appendSeq (be32 len ++ be32 tag) with
      crc := crcFold crcInit (be32 tag), crcv := true, dlen := len, wcnt := 0#32, chopen := true }

/-- `WRB byte`: append to the open chunk and fold into the CRC (R82). -/
def execWrb (byte : Byte) (s : State) : Host.Outcome State Fault Refusal :=
  command s [(!s.chopen, .proto), (s.chunkFull, .len), (s.lacksRoom 1, .ovf)] (s.emitCovered [byte])

/-- `WRAB byte`: fold into the Adler pair, then do what `WRB` does, as one atomic step (R84). -/
def execWrab (byte : Byte) (s : State) : Host.Outcome State Fault Refusal :=
  command s [(!s.chopen, .proto), (!s.adlv, .uninit), (s.chunkFull, .len), (s.lacksRoom 1, .ovf)]
    ((s.foldAdler byte).emitCovered [byte])

/-- `WRADL`: write the combined Adler value into the open chunk, big-endian, covered by the CRC (R85). -/
def execWradl (s : State) : Host.Outcome State Fault Refusal :=
  command s [(!s.chopen, .proto), (!s.adlv, .uninit), (s.lacksLength 4, .len), (s.lacksRoom 4, .ovf)]
    (s.emitCovered (be32 (combined s.s1 s.s2)))

/-- `ENDCH`: append the complement of the CRC, big-endian, and close the chunk; CRC itself is kept (R86). -/
def execEndch (s : State) : Host.Outcome State Fault Refusal :=
  command s [(!s.chopen, .proto), (!s.chunkFull, .len), (s.lacksRoom 4, .ovf)]
    { s.appendSeq (be32 (~~~s.crc)) with chopen := false }

end Sys2Proof.Machine
end

