-- ==== Sys2Proof/Machine/Dispatch.lean ====
section
/-! DEFINITION. The meaning of each command: one arm per constructor (30_encoding.md R45). -/

namespace Sys2Proof.Machine

def exec (i : Instr) (s : State) : Host.Outcome State Fault Refusal :=
  match i with
  | .clr => Sys2Proof.Machine.execClr s
  | .rawb byte => Sys2Proof.Machine.execRawb byte s
  | .crcinit => Sys2Proof.Machine.execCrcinit s
  | .crcb byte => Sys2Proof.Machine.execCrcb byte s
  | .adlinit => Sys2Proof.Machine.execAdlinit s
  | .adlb byte => Sys2Proof.Machine.execAdlb byte s
  | .begch tag len => Sys2Proof.Machine.execBegch tag len s
  | .wrb byte => Sys2Proof.Machine.execWrb byte s
  | .wrab byte => Sys2Proof.Machine.execWrab byte s
  | .wradl => Sys2Proof.Machine.execWradl s
  | .endch => Sys2Proof.Machine.execEndch s

end Sys2Proof.Machine
end

