-- ==== Sys2Proof/Machine/Issue.lean ====
section
/-! DEFINITION. A command word issued to the block, a host event taken by it, and command lists run in order
(20_memory.md R38, 30_encoding.md R50, R51). -/

namespace Sys2Proof.Machine

/-- A command word: the command it decodes to runs; an illegal word raises `E_ILLEGAL` (R50). While FAULT = 1 either
is ignored (R135; the frame `command` of each meaning says so). -/
def issue (w : CmdWord) (s : State) : Host.Outcome State Fault Refusal :=
  match decode w with
  | .command i => exec i s
  | .illegal _ => illegalWord s

/-- What the block does with one host event (D2, D34). -/
def takeHostEvent (e : HostEvent) (s : State) : Host.Outcome State Fault Refusal :=
  match e with
  | .cmd w => issue w s
  | .rst => .next s.applyReset
  | .statusRead n => statusRead n s
  | .bufRead addr => bufferRead addr s

/-- One step: the oldest waiting host event, whole (R35, R38); with none waiting the block is idle (R138, R151; log
entry 12). -/
def stepOnce (s : State) : Host.Outcome State Fault Refusal :=
  match s.port with
  | [] => .next s
  | e :: _ => takeHostEvent e s.takeEvent

/-- The commands of a list, one after another (R38, R51). -/
def execList : List Instr → State → Host.Outcome State Fault Refusal
  | [], s => .next s
  | i :: rest, s =>
    match exec i s with
    | .next t => execList rest t
    | .fault f => .fault f
    | .refused r => .refused r

/-- The host issues these command words after everything already waiting. -/
def State.issueAll (s : State) (ws : List CmdWord) : State := { s with port := s.port ++ ws.map .cmd }

end Sys2Proof.Machine
end

