-- ==== Sys2Proof/Machine/Step.lean ====
section
/-! DEFINITION. One step of the machine, and a command word placed where the next step takes it. -/

namespace Sys2Proof.Machine

/-- One step: the oldest waiting host event (R38; `stepOnce`). -/
def step (s : State) : Host.Outcome State Fault Refusal := stepOnce s

/-- `s` with the command word of the low `nbits` bits of `w` (the other bits zero) as the next host event on the
command port (log entry 1: the block fetches nothing, R12, R40; the host issues its commands). -/
def State.withFetchWord (s : State) (nbits w : Nat) : State :=
  { s with port := .cmd (BitVec.ofNat 72 (w % 2 ^ nbits)) :: s.port }

end Sys2Proof.Machine
end

