-- ==== Sys2Proof/Machine/Asm.lean ====
section
/-! DEFINITION. The assembler lines of 30_encoding.md R52: one command a line, its mnemonic, operands and comment. -/

namespace Sys2Proof.Machine

/-- The value of a digit in a base up to 16. -/
def digitValue (base : Nat) (c : Char) : Option Nat :=
  let v :=
    if '0' ≤ c ∧ c ≤ '9' then some (c.toNat - '0'.toNat)
    else if 'a' ≤ c ∧ c ≤ 'f' then some (c.toNat - 'a'.toNat + 10)
    else if 'A' ≤ c ∧ c ≤ 'F' then some (c.toNat - 'A'.toNat + 10)
    else none
  v.bind fun d => if d < base then some d else none

/-- The digits at the head of a line, added to `acc`. -/
def digitsFrom (base : Nat) (acc : Nat) : List Char → Nat × List Char
  | [] => (acc, [])
  | c :: cs =>
    match digitValue base c with
    | some d => digitsFrom base (acc * base + d) cs
    | none => (acc, c :: cs)

/-- One digit at least. -/
def parseDigits (base : Nat) : List Char → Option (Nat × List Char)
  | [] => none
  | c :: cs => (digitValue base c).map fun d => digitsFrom base d cs

/-- A number: decimal, or hexadecimal with the prefix `0x` (R52). -/
def parseNumber : List Char → Option (Nat × List Char)
  | '0' :: 'x' :: cs => parseDigits 16 cs
  | cs => parseDigits 10 cs

/-- A single quote. -/
def quoteChar : Char := Char.ofNat 39

/-- A double quote. -/
def doubleQuoteChar : Char := Char.ofNat 34

/-- An ASCII character as a byte (R52). -/
def asciiByte (c : Char) : Option Byte := if c.toNat < 128 then some (BitVec.ofNat 8 c.toNat) else none

/-- A byte operand: a number below 256, or one ASCII character in single quotes (R52). DESIGN CHOICE: between the quotes
any ASCII character stands for itself, a semicolon (which elsewhere starts a comment) and a single quote among them
(safe; log entry 17). -/
def parseByte (cs : List Char) : Option (Byte × List Char) :=
  match cs with
  | q :: c :: r :: rest =>
    if q = quoteChar ∧ r = quoteChar then (asciiByte c).map fun b => (b, rest) else number
  | _ => number
where
  number : Option (Byte × List Char) :=
    (parseNumber cs).bind fun (n, rest) => if n < 256 then some (BitVec.ofNat 8 n, rest) else none

/-- A 32-bit number (R52). -/
def parseWord (cs : List Char) : Option (Word × List Char) :=
  (parseNumber cs).bind fun (n, rest) => if n < 2 ^ 32 then some (BitVec.ofNat 32 n, rest) else none

/-- A tag: a number, or four ASCII characters in double quotes, the first in the most significant byte (R52). DESIGN
CHOICE: between the quotes any ASCII character stands for itself, a semicolon and a double quote among them (safe; log
entry 17). -/
def parseTag (cs : List Char) : Option (Word × List Char) :=
  match cs with
  | q :: c0 :: c1 :: c2 :: c3 :: r :: rest =>
    if q = doubleQuoteChar ∧ r = doubleQuoteChar then do
      let b0 ← asciiByte c0
      let b1 ← asciiByte c1
      let b2 ← asciiByte c2
      let b3 ← asciiByte c3
      some (b0 ++ b1 ++ b2 ++ b3, rest)
    else parseWord cs
  | _ => parseWord cs

/-- A line without its leading spaces. -/
def skipSpaces (cs : List Char) : List Char := cs.dropWhile (· = ' ')

/-- Nothing is left but spaces and a comment (R52: a semicolon starts a comment). -/
def lineEnds (cs : List Char) : Bool :=
  match skipSpaces cs with
  | [] => true
  | c :: _ => c == ';'

/-- A format-N line. -/
def asmN (i : Instr) (cs : List Char) : Option Instr := if lineEnds cs then some i else none

/-- A format-B line: a space and the byte. -/
def asmB (i : Byte → Instr) (cs : List Char) : Option Instr :=
  match cs with
  | ' ' :: rest => (parseByte (skipSpaces rest)).bind fun (b, rest) => if lineEnds rest then some (i b) else none
  | _ => none

/-- A format-TL line: a space, the tag, a comma and the length. -/
def asmTL (i : Word → Word → Instr) (cs : List Char) : Option Instr :=
  match cs with
  | ' ' :: rest =>
    (parseTag (skipSpaces rest)).bind fun (tag, rest) =>
      match skipSpaces rest with
      | ',' :: rest =>
        (parseWord (skipSpaces rest)).bind fun (len, rest) => if lineEnds rest then some (i tag len) else none
      | _ => none
  | _ => none

/-- The command of a line (R52); none for a line that is not a command (log entry 17). -/
def assemble (line : List Char) : Option Instr :=
  let cs := skipSpaces line
  let word := cs.takeWhile fun c => decide ('A' ≤ c ∧ c ≤ 'Z')
  let rest := cs.drop word.length
  if word = ['C', 'L', 'R'] then asmN .clr rest
  else if word = ['R', 'A', 'W', 'B'] then asmB .rawb rest
  else if word = ['C', 'R', 'C', 'I', 'N', 'I', 'T'] then asmN .crcinit rest
  else if word = ['C', 'R', 'C', 'B'] then asmB .crcb rest
  else if word = ['A', 'D', 'L', 'I', 'N', 'I', 'T'] then asmN .adlinit rest
  else if word = ['A', 'D', 'L', 'B'] then asmB .adlb rest
  else if word = ['B', 'E', 'G', 'C', 'H'] then asmTL .begch rest
  else if word = ['W', 'R', 'B'] then asmB .wrb rest
  else if word = ['W', 'R', 'A', 'B'] then asmB .wrab rest
  else if word = ['W', 'R', 'A', 'D', 'L'] then asmN .wradl rest
  else if word = ['E', 'N', 'D', 'C', 'H'] then asmN .endch rest
  else none

end Sys2Proof.Machine
end

