-- ==== Sys2Proof/Machine/HostSeq.lean ====
section
/-! DEFINITION. The host's command sequences (43_host_sequences.md): each pseudo-instruction is a list of commands, which
the block executes under the command rules (R53, R100). -/

namespace Sys2Proof.Machine

/-- `SIGNATURE` (R101; general knowledge G3, log entry 8). -/
def signature : List Byte := [0x89#8, 0x50#8, 0x4E#8, 0x47#8, 0x0D#8, 0x0A#8, 0x1A#8, 0x0A#8]

/-- `TAG_HDR`, "IHDR" (R101; G4, log entry 8). -/
def tagHdr : Word := 0x49484452#32

/-- `TAG_PAL`, "PLTE" (R101; G4, log entry 8). -/
def tagPal : Word := 0x504C5445#32

/-- `TAG_TRN`, "tRNS" (R101; G4, log entry 8). -/
def tagTrn : Word := 0x74524E53#32

/-- `TAG_DAT`, "IDAT" (R101; G4, log entry 8). -/
def tagDat : Word := 0x49444154#32

/-- `TAG_END`, "IEND" (R101; G4, log entry 8). -/
def tagEnd : Word := 0x49454E44#32

/-- The condition under which standard decoders accept a `CONTAINER_HDR` (R101; G8). -/
def containerHdrOk (hdr : Byte × Byte) : Bool :=
  hdr.1.extractLsb' 0 4 == 8#4 && decide ((hdr.1.extractLsb' 4 4).toNat ≤ 7) && !hdr.2.getLsbD 5
    && (256 * hdr.1.toNat + hdr.2.toNat) % 31 == 0

/-- The colour modes of R101. -/
inductive ColorMode where
  | grayscale
  | rgb
  | palette
  | grayscaleAlpha
  | rgba
deriving DecidableEq, Repr

/-- The header tag of a mode (R101). -/
def ColorMode.headerTag : ColorMode → Byte
  | .grayscale => 0#8
  | .rgb => 2#8
  | .palette => 3#8
  | .grayscaleAlpha => 4#8
  | .rgba => 6#8

/-- `bpp_ser`, the bytes per pixel written (R101). -/
def ColorMode.bppSer : ColorMode → Nat
  | .grayscale => 1
  | .rgb => 3
  | .palette => 1
  | .grayscaleAlpha => 2
  | .rgba => 4

/-- The storage bytes per pixel in the host's own pixel buffer (R101); nothing of the block depends on it. -/
def ColorMode.bppStored : ColorMode → Nat
  | .grayscale => 1
  | .rgb => 4
  | .palette => 1
  | .grayscaleAlpha => 2
  | .rgba => 4

/-- The bytes of one pixel in the order written: the `bpp_ser` least significant bytes, lowest first (R106); an RGB
pixel's bits 31:24 are dropped. -/
def pixelBytes : ColorMode → Word → List Byte
  | .grayscale, c => [c.extractLsb' 0 8]
  | .palette, c => [c.extractLsb' 0 8]
  | .grayscaleAlpha, c => [c.extractLsb' 0 8, c.extractLsb' 8 8]
  | .rgb, c => [c.extractLsb' 0 8, c.extractLsb' 8 8, c.extractLsb' 16 8]
  | .rgba, c => [c.extractLsb' 0 8, c.extractLsb' 8 8, c.extractLsb' 16 8, c.extractLsb' 24 8]

/-- `row(y)`: each pixel's bytes in turn (R106). -/
def rowBytes (mode : ColorMode) (pixels : List Word) : List Byte := pixels.flatMap (pixelBytes mode)

/-- What the host encodes: an image of the document as far as the sequences read it (R106, R111; log entry 16). -/
structure Image where
  width : Nat
  height : Nat
  mode : ColorMode
  /-- the rows from the top, each its pixels from the left (R106). -/
  rows : List (List Word)
  /-- the declared palette entries, read in Palette mode only (R111). -/
  palette : List Word
deriving DecidableEq, Repr

/-- `WR32BE v` (R102). -/
def wr32be (v : Word) : List Instr := (be32 v).map .wrb

/-- `WR16LE v` (R103). -/
def wr16le (v : Half) : List Instr := (le16 v).map .wrb

/-- `RAWSEQ` (R104). -/
def rawSeq (bs : List Byte) : List Instr := bs.map .rawb

/-- `WRSEQ` (R104). -/
def wrSeq (bs : List Byte) : List Instr := bs.map .wrb

/-- `WRASEQ` (R104). -/
def wraSeq (bs : List Byte) : List Instr := bs.map .wrab

/-- `CHUNK tag, p` (R105). -/
def chunkSeq (tag : Word) (p : List Byte) : List Instr :=
  [.begch tag (BitVec.ofNat 32 p.length)] ++ wrSeq p ++ [.endch]

/-- The record length `L = 1 + R` as 16 bits (R107). -/
def recordLen (r : List Byte) : Half := BitVec.ofNat 16 (1 + r.length)

/-- The record flag byte: `0x01` for the final record, else `0x00` (R107, C7). -/
def recordFlag (final : Bool) : Byte := if final then 0x01#8 else 0x00#8

/-- `STOREDROW final, r` (R107). -/
def storedRow (final : Bool) (r : List Byte) : List Instr :=
  [.wrb (recordFlag final)] ++ wr16le (recordLen r) ++ wr16le (recordLen r ^^^ 0xFFFF#16) ++ [.wrab 0x00#8] ++ wraSeq r

/-- The records of all rows: the flag is 1 on the last row only (R109). -/
def storedRows (mode : ColorMode) : List (List Word) → List Instr
  | [] => []
  | [r] => storedRow true (rowBytes mode r)
  | r :: q :: rest => storedRow false (rowBytes mode r) ++ storedRows mode (q :: rest)

/-- `IDATLEN(W, H, bpp_ser) = 2 + H * (5 + 1 + W * bpp_ser) + 4` (R108). -/
def idatLen (w h bpp : Nat) : Nat := 2 + h * (5 + 1 + w * bpp) + 4

/-- `IDATLEN` of an image (R108). -/
def Image.idatLength (img : Image) : Nat := idatLen img.width img.height img.mode.bppSer

/-- `IDAT W, H, mode, rows` (R109); `hdr` is `CONTAINER_HDR`. -/
def idatSeq (hdr : Byte × Byte) (img : Image) : List Instr :=
  [.begch tagDat (BitVec.ofNat 32 img.idatLength), .adlinit, .wrb hdr.1, .wrb hdr.2] ++ storedRows img.mode img.rows
    ++ [.wradl, .endch]

/-- `IHDR W, H, mode` (R110). -/
def ihdrSeq (img : Image) : List Instr :=
  [.begch tagHdr 13#32] ++ wr32be (BitVec.ofNat 32 img.width) ++ wr32be (BitVec.ofNat 32 img.height)
    ++ [.wrb 8#8, .wrb img.mode.headerTag, .wrb 0#8, .wrb 0#8, .wrb 0#8, .endch]

/-- The palette zero-filled to at least 16 entries (R111). -/
def paddedPalette (entries : List Word) : List Word := entries ++ List.replicate (16 - entries.length) 0#32

/-- The payload of the palette chunk: R, G, B of each entry (R111). -/
def paletteBytes (entries : List Word) : List Byte := (paddedPalette entries).flatMap (pixelBytes .rgb)

/-- The payload of the transparency chunk: the alpha of each entry (R111). -/
def alphaBytes (entries : List Word) : List Byte := (paddedPalette entries).map (BitVec.extractLsb' 24 8)

/-- `PAL entries` (R111). -/
def palSeq (entries : List Word) : List Instr :=
  chunkSeq tagPal (paletteBytes entries) ++ chunkSeq tagTrn (alphaBytes entries)

/-- `FILE image` (R112). -/
def fileSeq (hdr : Byte × Byte) (img : Image) : List Instr :=
  [.clr] ++ rawSeq signature ++ ihdrSeq img ++ (if img.mode = .palette then palSeq img.palette else [])
    ++ idatSeq hdr img ++ chunkSeq tagEnd []

/-- What the host must establish before it issues `FILE` (R114), and the shape of an image (R106). -/
def Image.mayStart (img : Image) : Bool :=
  decide (0 < img.width) && decide (0 < img.height) && decide (1 + img.width * img.mode.bppSer ≤ 65535)
    && decide (img.idatLength ≤ 2 ^ 32 - 1) && decide (img.palette.length ≤ 256)
    && decide (img.rows.length = img.height) && img.rows.all (fun r => r.length == img.width)

/-- A complete chunk's bytes: `BE32(n), BE32(t), p, BE32(~crc_fold(0xFFFFFFFF, BE32(t) followed by p))` (R88). -/
def chunkBytes (tag : Word) (p : List Byte) : List Byte :=
  be32 (BitVec.ofNat 32 p.length) ++ be32 tag ++ p ++ be32 (crcOf (be32 tag ++ p))

/-- The bytes of one record (R107). -/
def recordBytes (final : Bool) (r : List Byte) : List Byte :=
  [recordFlag final] ++ le16 (recordLen r) ++ le16 (recordLen r ^^^ 0xFFFF#16) ++ [0x00#8] ++ r

/-- The bytes of all records (R107, R109). -/
def recordsBytes (mode : ColorMode) : List (List Word) → List Byte
  | [] => []
  | [r] => recordBytes true (rowBytes mode r)
  | r :: q :: rest => recordBytes false (rowBytes mode r) ++ recordsBytes mode (q :: rest)

/-- The bytes the Adler pair covers: a filter byte 0 and `row(y)`, for each row (R109). -/
def scanlines (mode : ColorMode) (rows : List (List Word)) : List Byte := rows.flatMap (fun r => 0x00#8 :: rowBytes mode r)

/-- The Adler checksum of a sequence (R71). -/
def adlerOf (bs : List Byte) : Word := combined (adlerFold adlerInit bs).1 (adlerFold adlerInit bs).2

/-- The payload of the image-data chunk (R109). -/
def idatPayload (hdr : Byte × Byte) (img : Image) : List Byte :=
  [hdr.1, hdr.2] ++ recordsBytes img.mode img.rows ++ be32 (adlerOf (scanlines img.mode img.rows))

/-- The payload of the header chunk (R110). -/
def ihdrPayload (img : Image) : List Byte :=
  be32 (BitVec.ofNat 32 img.width) ++ be32 (BitVec.ofNat 32 img.height) ++ [8#8, img.mode.headerTag, 0#8, 0#8, 0#8]

/-- The bytes `FILE` yields, in the mandatory order (R112, R115). -/
def fileBytes (hdr : Byte × Byte) (img : Image) : List Byte :=
  signature ++ chunkBytes tagHdr (ihdrPayload img)
    ++ (if img.mode = .palette then
          chunkBytes tagPal (paletteBytes img.palette) ++ chunkBytes tagTrn (alphaBytes img.palette)
        else [])
    ++ chunkBytes tagDat (idatPayload hdr img) ++ chunkBytes tagEnd []

/-- The palette part of the file length (R113). -/
def Image.paletteLength (img : Image) : Nat :=
  if img.mode = .palette then (12 + 3 * max img.palette.length 16) + (12 + max img.palette.length 16) else 0

/-- The length of the file (R113). -/
def Image.fileLength (img : Image) : Nat := 8 + 25 + img.paletteLength + (12 + img.idatLength) + 12

/-- The number of commands of `FILE` (R113). -/
def Image.commandCount (img : Image) : Nat :=
  let n := max img.palette.length 16
  1 + 8 + 15 + (if img.mode = .palette then (2 + 3 * n) + (2 + n) else 0)
    + (4 + img.height * (6 + img.width * img.mode.bppSer) + 2) + 2

end Sys2Proof.Machine
end

