-- ==== Sys2Proof/Safety.lean ====
section
/-! DEFINITION. What counts as a good state and a good run, in the terms the statements use (10_state.md R22,
60_exceptions.md R143). -/

namespace Sys2Proof.Safety

open Sys2Proof.Machine

/-- The bytes of OBUF in order of increasing offset. -/
def outputBytes (s : State) : List Byte := s.obuf.map Prod.snd

/-- R22 item 1: `ADLV = 1` implies `S1 < 65521` and `S2 < 65521`. -/
def AdlerInRange (s : State) : Prop := s.adlv = true → s.s1.toNat < 65521 ∧ s.s2.toNat < 65521

/-- R22 item 2: `CHOPEN = 1` implies `CRCV = 1` and `WCNT <= DLEN`. -/
def OpenChunkCounted (s : State) : Prop := s.chopen = true → s.crcv = true ∧ s.wcnt.toNat ≤ s.dlen.toNat

/-- R22 item 3: `OLEN <= OBUF_CAP`. -/
def WithinCapacity (s : State) : Prop := s.olen.toNat ≤ s.obufCap.toNat

/-- R22 item 4: `FAULT = 0` implies `CAUSE = 0`; `FAULT = 1` implies `CAUSE` is one of the codes 1 to 5. -/
def CauseMatchesFault (s : State) : Prop :=
  (s.fault = false → s.cause = 0#4) ∧ (s.fault = true → 1 ≤ s.cause.toNat ∧ s.cause.toNat ≤ 5)

/-- R22 item 5: while `CHOPEN = 1`, for the tag `t` and the payload `p` so far, the last `8 + WCNT` bytes of OBUF are
`BE32(DLEN), BE32(t), p` and `CRC = crc_fold(0xFFFFFFFF, BE32(t) followed by p)`. -/
def OpenChunkConsistent (s : State) : Prop :=
  s.chopen = true → ∃ before tag p, outputBytes s = before ++ (be32 s.dlen ++ be32 tag ++ p)
    ∧ p.length = s.wcnt.toNat ∧ s.crc = crcFold crcInit (be32 tag ++ p)

/-- R18, R20: OBUF holds a byte at each of the offsets `0 .. OLEN - 1` and nothing else. -/
def BufferDense (s : State) : Prop := s.obuf.map Prod.fst = List.range s.olen.toNat

/-- R6: `1 <= OBUF_CAP` (that it is at most `2^64 - 1` is its width). -/
def CapacityLegal (s : State) : Prop := s.obufCap ≠ 0#64

/-- Everything that holds in every reachable state (R22 items 1 to 5, R6, R18). -/
structure Inv (s : State) : Prop where
  adler : AdlerInRange s
  counted : OpenChunkCounted s
  capacity : WithinCapacity s
  cause : CauseMatchesFault s
  chunk : OpenChunkConsistent s
  dense : BufferDense s
  legal : CapacityLegal s

/-- A run's end state is complete (R143): `FAULT = 0` and `CHOPEN = 0`. -/
def complete (s : State) : Bool := !s.fault && !s.chopen

/-- The run has failed (R143): `FAULT = 1`, whatever `CHOPEN` is. -/
def failed (s : State) : Bool := s.fault

/-- The run stopped in the middle of a chunk: its buffer is a prefix of an output (R143, which names `CHOPEN = 1` alone).
DESIGN CHOICE: a run that ends with both `FAULT = 1` and `CHOPEN = 1` counts as failed only and not as this (safe; log
entry 20). -/
def midChunk (s : State) : Bool := !s.fault && s.chopen

/-- The output of a run, only when its end state is complete (R143, R158). -/
def runOutput (s : State) : Option (List Byte) := if complete s then some (outputBytes s) else none

/-- The state of R23 for an instance of the given capacity (R6). -/
def resetWithCapacity (cap : Offset) : State := { State.reset with obufCap := cap }

/-- A run (R143): a finite list of command words issued to an instance from the reset state. -/
def run (cap : Offset) (ws : List CmdWord) : Host.Outcome State Fault Refusal :=
  core.run ws.length ((resetWithCapacity cap).issueAll ws)

/-- `CRC`, `S1` and `S2` hold no value where their valid bit is 0 (R13, R23): two states that differ only there are the
same state of the block. -/
def SameSpecified (s t : State) : Prop :=
  (s.crcv = true → s.crc = t.crc) ∧ (s.adlv = true → s.s1 = t.s1 ∧ s.s2 = t.s2)
    ∧ t = { s with crc := t.crc, s1 := t.s1, s2 := t.s2 }

/-- The number of bytes a command appends when it does not fault (R12). -/
def bytesEmitted : Instr → Nat
  | .clr | .crcinit | .crcb _ | .adlinit | .adlb _ => 0
  | .rawb _ | .wrb _ | .wrab _ => 1
  | .wradl | .endch => 4
  | .begch _ _ => 8

/-- The bytes a command appends when it does not fault, in order of increasing offset, written out field by field
(R32, R81, R82, R84). -/
def emission (i : Instr) (s : State) : List Byte :=
  match i with
  | .clr | .crcinit | .crcb _ | .adlinit | .adlb _ => []
  | .rawb b | .wrb b | .wrab b => [b]
  | .begch tag len =>
    [len.extractLsb' 24 8, len.extractLsb' 16 8, len.extractLsb' 8 8, len.extractLsb' 0 8,
     tag.extractLsb' 24 8, tag.extractLsb' 16 8, tag.extractLsb' 8 8, tag.extractLsb' 0 8]
  | .wradl => [s.s2.extractLsb' 8 8, s.s2.extractLsb' 0 8, s.s1.extractLsb' 8 8, s.s1.extractLsb' 0 8]
  | .endch =>
    [(~~~s.crc).extractLsb' 24 8, (~~~s.crc).extractLsb' 16 8, (~~~s.crc).extractLsb' 8 8, (~~~s.crc).extractLsb' 0 8]

/-- The table of R87: the command is refused with `E_PROTO` in this chunk state. -/
def shutOut (i : Instr) (chopen : Bool) : Bool :=
  match i with
  | .clr | .rawb _ | .crcinit | .crcb _ | .begch _ _ => chopen
  | .wrb _ | .wrab _ | .wradl | .endch => !chopen
  | .adlinit | .adlb _ => false

/-- What an accepted command of the table of R87 further needs. -/
def needs (i : Instr) (s : State) : Prop :=
  match i with
  | .crcb _ => s.crcv = true
  | .adlb _ => s.adlv = true
  | .wrb _ => s.wcnt.toNat < s.dlen.toNat
  | .wrab _ => s.adlv = true ∧ s.wcnt.toNat < s.dlen.toNat
  | .wradl => s.adlv = true ∧ s.wcnt.toNat + 4 ≤ s.dlen.toNat
  | .endch => s.wcnt = s.dlen
  | .clr | .rawb _ | .crcinit | .adlinit | .begch _ _ => True

/-- The rows of the matrix of R132: the faults a command can raise. -/
def raisable : Instr → List Cause
  | .clr | .crcinit => [.proto]
  | .rawb _ | .begch _ _ => [.proto, .ovf]
  | .crcb _ => [.proto, .uninit]
  | .adlinit => []
  | .adlb _ => [.uninit]
  | .wrb _ | .endch => [.proto, .len, .ovf]
  | .wrab _ | .wradl => [.proto, .uninit, .len, .ovf]

/-- The conditions of the table of R131 for a command (`E_ILLEGAL` is about words that are no command). -/
def faultCondition (k : Cause) (i : Instr) (s : State) : Prop :=
  match k with
  | .illegal => False
  | .proto =>
    match i with
    | .clr | .rawb _ | .crcinit | .crcb _ | .begch _ _ => s.chopen = true
    | .wrb _ | .wrab _ | .wradl | .endch => s.chopen = false
    | .adlinit | .adlb _ => False
  | .uninit =>
    match i with
    | .crcb _ => s.crcv = false
    | .adlb _ | .wrab _ | .wradl => s.adlv = false
    | .clr | .rawb _ | .crcinit | .adlinit | .begch _ _ | .wrb _ | .endch => False
  | .len =>
    match i with
    | .wrb _ | .wrab _ => s.wcnt = s.dlen
    | .wradl => s.wcnt.toNat + 4 > s.dlen.toNat
    | .endch => s.wcnt ≠ s.dlen
    | .clr | .rawb _ | .crcinit | .crcb _ | .adlinit | .adlb _ | .begch _ _ => False
  | .ovf => 0 < bytesEmitted i ∧ s.olen.toNat + bytesEmitted i > s.obufCap.toNat

/-- The priority order of R133, highest first. -/
def priority : List Cause := [.illegal, .proto, .uninit, .len, .ovf]

/-- The columns "w" of the matrix of R11: `t` differs from `s` at most in what the command writes. FAULT, CAUSE, the
capacity and the model's own fields are not among them. -/
def OnlyWrites (i : Instr) (s t : State) : Prop :=
  match i with
  | .clr => t = { s with olen := t.olen, obuf := t.obuf }
  | .rawb _ => t = { s with olen := t.olen, obuf := t.obuf }
  | .crcinit => t = { s with crc := t.crc, crcv := t.crcv }
  | .crcb _ => t = { s with crc := t.crc }
  | .adlinit => t = { s with s1 := t.s1, s2 := t.s2, adlv := t.adlv }
  | .adlb _ => t = { s with s1 := t.s1, s2 := t.s2 }
  | .begch _ _ =>
    t = { s with crc := t.crc, dlen := t.dlen, wcnt := t.wcnt, olen := t.olen, obuf := t.obuf, chopen := t.chopen, crcv := t.crcv }
  | .wrb _ => t = { s with crc := t.crc, wcnt := t.wcnt, olen := t.olen, obuf := t.obuf }
  | .wrab _ => t = { s with crc := t.crc, s1 := t.s1, s2 := t.s2, wcnt := t.wcnt, olen := t.olen, obuf := t.obuf }
  | .wradl => t = { s with crc := t.crc, wcnt := t.wcnt, olen := t.olen, obuf := t.obuf }
  | .endch => t = { s with olen := t.olen, obuf := t.obuf, chopen := t.chopen }

/-- A piece of output (R88): a byte of `RAWB`, or a chunk with its declared length. -/
inductive Segment where
  | raw (b : Byte)
  | chunk (tag len : Word) (payload : List Byte)
deriving DecidableEq, Repr

/-- The bytes of a segment: a chunk is `BE32(n), BE32(t), p, BE32(~crc_fold(0xFFFFFFFF, BE32(t) followed by p))` (R88). -/
def Segment.bytes : Segment → List Byte
  | .raw b => [b]
  | .chunk tag len p => be32 len ++ be32 tag ++ p ++ be32 (crcOf (be32 tag ++ p))

/-- A chunk's length field equals its payload size (R88). -/
def Segment.lengthAgrees : Segment → Prop
  | .raw _ => True
  | .chunk _ len p => p.length = len.toNat

/-- The segments a command list stands for (R88), from the pair (S1, S2) and the chunk open so far: its tag, declared
length and payload. A command that faults in its chunk state stands for nothing. -/
def segments (pair : Half × Half) (opened : Option (Word × Word × List Byte)) : List Instr → List Segment
  | [] => []
  | .rawb b :: rest => .raw b :: segments pair opened rest
  | .begch tag len :: rest => segments pair (some (tag, len, [])) rest
  | .wrb b :: rest => segments pair (opened.map fun (t, n, p) => (t, n, p ++ [b])) rest
  | .wrab b :: rest => segments (adlerStep pair b) (opened.map fun (t, n, p) => (t, n, p ++ [b])) rest
  | .wradl :: rest => segments pair (opened.map fun (t, n, p) => (t, n, p ++ be32 (combined pair.1 pair.2))) rest
  | .endch :: rest =>
    match opened with
    | some (t, n, p) => .chunk t n p :: segments pair none rest
    | none => segments pair none rest
  | .adlinit :: rest => segments adlerInit opened rest
  | .adlb b :: rest => segments (adlerStep pair b) opened rest
  | .clr :: rest => segments pair opened rest
  | .crcinit :: rest => segments pair opened rest
  | .crcb _ :: rest => segments pair opened rest

/-- Undoing the stored-block framing (R115): of each of `h` records, drop the 5 header bytes and keep the next `n`. -/
def stripRecords : Nat → Nat → List Byte → List (List Byte)
  | 0, _, _ => []
  | h + 1, n, bs => (bs.drop 5).take n :: stripRecords h n (bs.drop (5 + n))

end Sys2Proof.Safety
end

