-- ==== Sys2Proof/Certificates/Slice0/Obligations.lean ====
section
/-! DEFINITION. The statements for the provers, from the numbered rules of spec/. -/

open Sys2Proof Sys2Proof.Machine Sys2Proof.Safety

/-! ### Encoding (30_encoding.md) -/

/-- R46 to R49: the word of a command decodes to that command, with every operand at every value. -/
def Obligations.DecodeOfEncodeIsTheCommand : Prop :=
  ∀ i : Instr, decode (encode i) = .command i

/-- R47, R50: a word that decodes is the word of its command and no other, so no bit of it is ignored. -/
def Obligations.DecodedWordIsItsEncoding : Prop :=
  ∀ (w : CmdWord) (i : Instr), decode w = .command i → encode i = w

/-- R49: a word is the command of a row exactly when `(w & mask) = match`, and no two rows match the same word. -/
def Obligations.OpcodeMapDecidesTheCommand : Prop :=
  (∀ (w : CmdWord) (r : OpcodeRow), r ∈ opcodeMap →
    (r.covers w ↔ ∃ i, decode w = .command i ∧ i.mnemonic = r.mnemonic))
  ∧ ∀ (w : CmdWord) (r q : OpcodeRow), r ∈ opcodeMap → q ∈ opcodeMap → r.covers w → q.covers w → r = q

/-- R50: a word is a command or illegal. It is illegal exactly when its opcode is none of the eleven, or a format-N word
has a one in A or B, or a format-B word has a one in A or B[31:8]. An illegal word raises E_ILLEGAL and changes no other
state. -/
def Obligations.IllegalWordsAreExactlyThoseOfR50 : Prop :=
  ∀ w : CmdWord,
    ((∃ i, decode w = .command i) ∨ ∃ e, decode w = .illegal e)
    ∧ ((∃ e, decode w = .illegal e) ↔
        (w.extractLsb' 64 8 ∉ [0x01#8, 0x02#8, 0x10#8, 0x11#8, 0x20#8, 0x21#8, 0x30#8, 0x31#8, 0x32#8, 0x33#8, 0x34#8])
        ∨ (w.extractLsb' 64 8 ∈ [0x01#8, 0x10#8, 0x20#8, 0x33#8, 0x34#8]
            ∧ (w.extractLsb' 32 32 ≠ 0#32 ∨ w.extractLsb' 0 32 ≠ 0#32))
        ∨ (w.extractLsb' 64 8 ∈ [0x02#8, 0x11#8, 0x21#8, 0x31#8, 0x32#8]
            ∧ (w.extractLsb' 32 32 ≠ 0#32 ∨ w.extractLsb' 8 24 ≠ 0#24)))
    ∧ ((∃ e, decode w = .illegal e) → ∀ s : State, s.fault = false →
        issue w s = .next { s with fault := true, cause := 1#4 })

/-- R46 to R49: a few words written out digit by digit decode to the commands they stand for. -/
def Obligations.SampleWordsDecodeAsSpecified : Prop :=
  decode 0x010000000000000000#72 = .command .clr
  ∧ decode 0x020000000000000089#72 = .command (.rawb 0x89#8)
  ∧ decode 0x100000000000000000#72 = .command .crcinit
  ∧ decode 0x110000000000000031#72 = .command (.crcb 0x31#8)
  ∧ decode 0x200000000000000000#72 = .command .adlinit
  ∧ decode 0x210000000000000061#72 = .command (.adlb 0x61#8)
  ∧ decode 0x3001020304A0B0C0D0#72 = .command (.begch 0x01020304#32 0xA0B0C0D0#32)
  ∧ decode 0x3100000000000000FF#72 = .command (.wrb 0xFF#8)
  ∧ decode 0x32000000000000002A#72 = .command (.wrab 0x2A#8)
  ∧ decode 0x330000000000000000#72 = .command .wradl
  ∧ decode 0x340000000000000000#72 = .command .endch

/-- R52: lines of the assembler syntax and the words they stand for, among them the example `BEGCH "IEND", 0` =
`3049454E4400000000`. -/
def Obligations.AssemblerLinesEncodeAsSpecified : Prop :=
  (assemble ['B', 'E', 'G', 'C', 'H', ' ', doubleQuoteChar, 'I', 'E', 'N', 'D', doubleQuoteChar, ',', ' ', '0']).map encode
      = some 0x3049454E4400000000#72
  ∧ (assemble ['W', 'R', 'B', ' ', quoteChar, 'I', quoteChar]).map encode = some 0x310000000000000049#72
  ∧ (assemble ['R', 'A', 'W', 'B', ' ', '0', 'x', '8', '9', ' ', ';', ' ', 'x']).map encode = some 0x020000000000000089#72
  ∧ (assemble ['W', 'R', 'A', 'B', ' ', '4', '2']).map encode = some 0x32000000000000002A#72
  ∧ (assemble ['E', 'N', 'D', 'C', 'H']).map encode = some 0x340000000000000000#72
  ∧ assemble ['W', 'R', 'B', ' ', '2', '5', '6'] = none

/-! ### One step, faults, reset (20_memory.md, 60_exceptions.md, 70_reset_and_hazards.md) -/

/-- R12, R38: when the oldest waiting host event is a command word that decodes to `i`, the step is `exec i` on the
state with that event taken. -/
def Obligations.StepRunsTheDecodedCommand : Prop :=
  ∀ (s : State) (w : CmdWord) (rest : List HostEvent) (i : Instr),
    s.port = .cmd w :: rest → decode w = .command i → step s = exec i { s with port := rest }

/-- R50, R131, R134: an illegal word taken by an unfaulted block sets FAULT and CAUSE = 1 and nothing else. -/
def Obligations.StepOfAnIllegalWordRaisesEIllegal : Prop :=
  ∀ (s : State) (w : CmdWord) (rest : List HostEvent) (e : DecodeError),
    s.port = .cmd w :: rest → decode w = .illegal e → s.fault = false →
    step s = .next { s with port := rest, fault := true, cause := 1#4 }

/-- R135: while FAULT = 1 every command word, legal or not, changes no state at all; status reads still show the
registers, reads of OBUF below OLEN still return the bytes appended; and what the buffer holds is no result. -/
def Obligations.FaultedBlockIgnoresEveryWord : Prop :=
  ∀ s : State, s.fault = true →
    (∀ (w : CmdWord) (rest : List HostEvent), s.port = .cmd w :: rest → step s = .next { s with port := rest })
    ∧ (∀ (n : BitVec 3) (rest : List HostEvent) (v : Word), s.port = .statusRead n :: rest →
        s.statusValue n = some v → step s = .next { s with port := rest, srData := some v })
    ∧ (∀ (a : Offset) (rest : List HostEvent), s.port = .bufRead a :: rest → BufferDense s →
        a.toNat < s.olen.toNat →
        ∃ b, (outputBytes s)[a.toNat]? = some b ∧ step s = .next { s with port := rest, rdData := some b })
    ∧ runOutput s = none

/-- R136: no step but one that takes the reset input clears FAULT or changes CAUSE once FAULT = 1, and that one clears
it and empties the output buffer. -/
def Obligations.OnlyResetLeavesTheFaultedState : Prop :=
  ∀ s : State, s.fault = true →
    (∀ t, step s = .next t → (t.fault = false ∨ t.cause ≠ s.cause) → ∃ rest, s.port = .rst :: rest)
    ∧ ∀ rest, s.port = .rst :: rest →
        ∃ t, step s = .next t ∧ t.fault = false ∧ t.cause = 0#4 ∧ t.olen = 0#64 ∧ ∀ a, Memory.read t.obuf a = none

/-- R138, R151: with no host event waiting nothing happens. This rests on the model's own port field (log entries 1 and
12). -/
def Obligations.IdleBlockDoesNothing : Prop :=
  ∀ s : State, s.port = [] → step s = .next s

/-- R150: the reset input, in any state, puts every piece of state into the condition of R23; CRC, S1 and S2 have no
specified value, so status registers 1 and 2 are unspecified after it. -/
def Obligations.ResetInputLeavesTheResetState : Prop :=
  ∀ (s : State) (rest : List HostEvent), s.port = .rst :: rest →
    ∃ t, step s = .next t ∧ t.olen = 0#64 ∧ t.obuf = [] ∧ t.chopen = false ∧ t.crcv = false ∧ t.adlv = false
      ∧ t.fault = false ∧ t.cause = 0#4 ∧ t.dlen = 0#32 ∧ t.wcnt = 0#32
      ∧ t.statusValue 1#3 = none ∧ t.statusValue 2#3 = none
      ∧ t.port = rest ∧ t.obufCap = s.obufCap

/-- R23: the state after reset, and that the registers without a specified value are not readable there. -/
def Obligations.StateAfterResetIsThatOfR23 : Prop :=
  State.reset.dlen = 0#32 ∧ State.reset.wcnt = 0#32 ∧ State.reset.olen = 0#64 ∧ State.reset.obuf = []
  ∧ State.reset.chopen = false ∧ State.reset.crcv = false ∧ State.reset.adlv = false
  ∧ State.reset.fault = false ∧ State.reset.cause = 0#4
  ∧ State.reset.statusValue 1#3 = none ∧ State.reset.statusValue 2#3 = none

/-- R134: a command or an illegal word that raises a fault changes FAULT and CAUSE and nothing else. -/
def Obligations.FaultEntryIsPrecise : Prop :=
  ∀ (w : CmdWord) (s t : State), s.fault = false → issue w s = .next t → t.fault = true →
    (∃ k : Cause, t.cause = k.code) ∧ t = { s with fault := true, cause := t.cause }

/-- R131, R133: a command raises the first cause in priority order whose condition in the table of R131 holds, and none
when no condition holds; an illegal word raises E_ILLEGAL; the codes are 1 to 5, and no other is ever produced. -/
def Obligations.FirstFaultConditionIsReported : Prop :=
  Cause.code .illegal = 1#4 ∧ Cause.code .proto = 2#4 ∧ Cause.code .uninit = 3#4 ∧ Cause.code .len = 4#4
  ∧ Cause.code .ovf = 5#4
  ∧ (∀ (i : Instr) (s : State), s.fault = false →
    ((∀ k : Cause, ¬ faultCondition k i s) → ∃ t, exec i s = .next t ∧ t.fault = false)
    ∧ ∀ k : Cause, faultCondition k i s → (∀ j ∈ priority.takeWhile (· ≠ k), ¬ faultCondition j i s) →
        exec i s = .next { s with fault := true, cause := k.code })
  ∧ (∀ (w : CmdWord) (e : DecodeError) (s : State), decode w = .illegal e → s.fault = false →
      issue w s = .next { s with fault := true, cause := 1#4 })
  ∧ ∀ (w : CmdWord) (s t : State), s.fault = false → issue w s = .next t → t.fault = true →
      1 ≤ t.cause.toNat ∧ t.cause.toNat ≤ 5

/-- R132 (derived by the spec from the command rules): a command raises a fault in some state exactly where the matrix
has an x; ADLINIT cannot fault. -/
def Obligations.FaultMatrixIsThatOfR132 : Prop :=
  ∀ (i : Instr) (k : Cause),
    k ∈ raisable i ↔ ∃ s : State, s.fault = false ∧ exec i s = .next { s with fault := true, cause := k.code }

/-- R87: which command is refused with E_PROTO in which chunk state, and what an accepted command further needs not to
fault for another reason than room. -/
def Obligations.ProtocolTableIsThatOfR87 : Prop :=
  ∀ (i : Instr) (s : State), s.fault = false →
    (shutOut i s.chopen = true → exec i s = .next { s with fault := true, cause := 2#4 })
    ∧ (shutOut i s.chopen = false → OpenChunkCounted s →
        (0 < bytesEmitted i → s.olen.toNat + bytesEmitted i ≤ s.obufCap.toNat) →
        ∃ t, exec i s = .next t ∧ (t.fault = false ↔ needs i s) ∧ (t.fault = true → t.cause ≠ 2#4)
          ∧ (t.fault = false → t.chopen =
              match i with
              | .begch _ _ => true
              | .endch => false
              | _ => s.chopen))

/-! ### The output buffer (10_state.md R12, 20_memory.md R30 to R36) -/

/-- R33: a command that emits n bytes and finds fewer of them free raises E_OVF or a fault of higher priority and
appends nothing; one that does not fault advances OLEN by exactly n, which cannot wrap. -/
def Obligations.CapacityIsCheckedForAllBytes : Prop :=
  ∀ (i : Instr) (s : State), s.fault = false → 0 < bytesEmitted i →
    (s.olen.toNat + bytesEmitted i > s.obufCap.toNat →
      ∃ t, exec i s = .next t ∧ t.fault = true ∧ t.obuf = s.obuf ∧ t.olen = s.olen
        ∧ ((∀ k ∈ [Cause.proto, Cause.uninit, Cause.len], ¬ faultCondition k i s) → t.cause = 5#4))
    ∧ ∀ t, exec i s = .next t → t.fault = false →
        s.olen.toNat + bytesEmitted i ≤ s.obufCap.toNat ∧ t.olen.toNat = s.olen.toNat + bytesEmitted i

/-- R32: the bytes a command emits stand at the old cursor, in the order of the table, most significant byte lowest. -/
def Obligations.EmittedBytesStandInOrder : Prop :=
  ∀ (i : Instr) (s t : State), s.fault = false → exec i s = .next t → t.fault = false →
    ∀ (k : Nat) (b : Byte), (emission i s)[k]? = some b → Memory.read t.obuf (s.olen.toNat + k) = some b

/-- R30, R31: the bytes a command stores are those from the old cursor on, as many as it emits; every other byte of
memory reads as before. `CLR` alone empties the buffer when it does not fault. -/
def Obligations.CommandsStoreOnlyAtTheCursor : Prop :=
  ∀ (i : Instr) (s t : State), exec i s = .next t →
    (i ≠ .clr → ∀ a : Nat, (a < s.olen.toNat ∨ s.olen.toNat + bytesEmitted i ≤ a) →
      Memory.read t.obuf a = Memory.read s.obuf a)
    ∧ (i = .clr → s.fault = false → t.fault = false → ∀ a : Nat, Memory.read t.obuf a = none)
    ∧ (t.fault = true → ∀ a : Nat, Memory.read t.obuf a = Memory.read s.obuf a)

/-- R11: a command that does not fault writes at most the registers and flags its row marks "w". -/
def Obligations.CommandsWriteOnlyWhatR11Marks : Prop :=
  ∀ (i : Instr) (s t : State), s.fault = false → exec i s = .next t → t.fault = false → OnlyWrites i s t

/-- The canonical form of OBUF (offsets strictly rising) is kept by every step, from every state. -/
def Obligations.StepKeepsTheBufferCanonical : Prop :=
  ∀ s t : State, Memory.wf s.obuf = true → step s = .next t → Memory.wf t.obuf = true

/-- R36: a buffer read below OLEN returns OBUF[addr] and changes nothing of the block; at or above OLEN it is refused;
status registers 5 and 6 are the halves of OLEN. -/
def Obligations.BufferReadReturnsTheAppendedByte : Prop :=
  ∀ (s : State) (a : Offset) (rest : List HostEvent), s.port = .bufRead a :: rest → BufferDense s →
    (a.toNat < s.olen.toNat →
      ∃ b, (outputBytes s)[a.toNat]? = some b ∧ step s = .next { s with port := rest, rdData := some b })
    ∧ (s.olen.toNat ≤ a.toNat → step s = .refused (.readBeyondOlen a))
    ∧ ∃ low high : Word, s.statusValue 5#3 = some low ∧ s.statusValue 6#3 = some high ∧ s.olen = high ++ low

/-! ### Status registers (10_state.md R15 to R17) -/

/-- R16: the fields of STATUS bit by bit; its reset value is 0. -/
def Obligations.StatusRegisterZeroFields : Prop :=
  (∀ s : State, s.statusValue 0#3 = some s.status ∧ s.status.getLsbD 0 = s.chopen ∧ s.status.getLsbD 1 = s.crcv
    ∧ s.status.getLsbD 2 = s.adlv ∧ s.status.getLsbD 3 = s.fault ∧ s.status.extractLsb' 4 4 = 0#4
    ∧ s.status.extractLsb' 8 4 = s.cause ∧ s.status.extractLsb' 12 20 = 0#20)
  ∧ State.reset.status = 0#32

/-- R17: what a status read of registers 1 to 7 answers, and what they read after reset. That CRCVAL with CRCV = 0 and
ADLVAL with ADLV = 0 answer an unspecified value is R17; the form of that draw, `Config.freeWord` of the counter `draws`
and the counter's advance, is the model's choice (log entry 5), and the statement holds whatever value it is. -/
def Obligations.StatusRegistersOneToSevenRead : Prop :=
  (State.reset.statusValue 1#3 = none ∧ State.reset.statusValue 2#3 = none
    ∧ ∀ n ∈ [3#3, 4#3, 5#3, 6#3, 7#3], State.reset.statusValue n = some 0#32)
  ∧ ∀ (s : State) (n : BitVec 3) (rest : List HostEvent), s.port = .statusRead n :: rest →
    (n = 1#3 → s.crcv = true → step s = .next { s with port := rest, srData := some s.crc })
    ∧ (n = 1#3 → s.crcv = false →
        step s = .next { s with port := rest, srData := some (Config.freeWord s.draws), draws := s.draws + 1 })
    ∧ (n = 2#3 → s.adlv = true → ∃ v : Word, step s = .next { s with port := rest, srData := some v }
        ∧ v.extractLsb' 16 16 = s.s2 ∧ v.extractLsb' 0 16 = s.s1)
    ∧ (n = 2#3 → s.adlv = false →
        step s = .next { s with port := rest, srData := some (Config.freeWord s.draws), draws := s.draws + 1 })
    ∧ (n = 3#3 → step s = .next { s with port := rest, srData := some s.dlen })
    ∧ (n = 4#3 → step s = .next { s with port := rest, srData := some s.wcnt })
    ∧ (n = 5#3 → step s = .next { s with port := rest, srData := some (s.olen.extractLsb' 0 32) })
    ∧ (n = 6#3 → step s = .next { s with port := rest, srData := some (s.olen.extractLsb' 32 32) })
    ∧ (n = 7#3 → step s = .next { s with port := rest, srData := some 0#32 })

/-- R15: a status read, of any register, in any state, completes and changes no state of the block. The fields that may
change are the model's own (log entries 1, 5 and 11). -/
def Obligations.StatusReadChangesNoBlockState : Prop :=
  ∀ (s : State) (n : BitVec 3) (rest : List HostEvent), s.port = .statusRead n :: rest →
    ∃ t v, step s = .next t ∧ t = { s with port := rest, srData := some v, draws := t.draws }

/-! ### The commands (R63, R64, R72, R73, R80 to R86) -/

/-- R80: CLR. -/
def Obligations.ClrDiscardsTheOutputBuffer : Prop :=
  decode 0x010000000000000000#72 = .command .clr
  ∧ ∀ s : State, s.fault = false →
    (s.chopen = true → exec .clr s = .next { s with fault := true, cause := 2#4 })
    ∧ (s.chopen = false → exec .clr s = .next { s with olen := 0#64, obuf := [] })

/-- R81: RAWB. -/
def Obligations.RawbAppendsOneUncoveredByte : Prop :=
  ∀ b : Byte, decode (0x0200000000000000#64 ++ b) = .command (.rawb b)
  ∧ ∀ s : State, s.fault = false →
    (s.chopen = true → exec (.rawb b) s = .next { s with fault := true, cause := 2#4 })
    ∧ (s.chopen = false → s.olen.toNat + 1 > s.obufCap.toNat →
        exec (.rawb b) s = .next { s with fault := true, cause := 5#4 })
    ∧ (s.chopen = false → s.olen.toNat + 1 ≤ s.obufCap.toNat →
        exec (.rawb b) s = .next { s with obuf := Memory.write s.obuf s.olen.toNat b, olen := s.olen + 1#64 })

/-- R63: CRCINIT. -/
def Obligations.CrcinitSetsAllOnes : Prop :=
  decode 0x100000000000000000#72 = .command .crcinit
  ∧ ∀ s : State, s.fault = false →
    (s.chopen = true → exec .crcinit s = .next { s with fault := true, cause := 2#4 })
    ∧ (s.chopen = false → exec .crcinit s = .next { s with crc := 0xFFFFFFFF#32, crcv := true })

/-- R64: CRCB. -/
def Obligations.CrcbFoldsOneByte : Prop :=
  ∀ b : Byte, decode (0x1100000000000000#64 ++ b) = .command (.crcb b)
  ∧ ∀ s : State, s.fault = false →
    (s.chopen = true → exec (.crcb b) s = .next { s with fault := true, cause := 2#4 })
    ∧ (s.chopen = false → s.crcv = false → exec (.crcb b) s = .next { s with fault := true, cause := 3#4 })
    ∧ (s.chopen = false → s.crcv = true → exec (.crcb b) s = .next { s with crc := crcStep s.crc b })

/-- R72: ADLINIT; it has no fault of its own, in any chunk state. -/
def Obligations.AdlinitSetsOneAndZero : Prop :=
  decode 0x200000000000000000#72 = .command .adlinit
  ∧ ∀ s : State, s.fault = false → exec .adlinit s = .next { s with s1 := 1#16, s2 := 0#16, adlv := true }

/-- R73: ADLB, in any chunk state. -/
def Obligations.AdlbFoldsOneByte : Prop :=
  ∀ b : Byte, decode (0x2100000000000000#64 ++ b) = .command (.adlb b)
  ∧ ∀ s : State, s.fault = false →
    (s.adlv = false → exec (.adlb b) s = .next { s with fault := true, cause := 3#4 })
    ∧ (s.adlv = true → exec (.adlb b) s =
        .next { s with s1 := (adlerStep (s.s1, s.s2) b).1, s2 := (adlerStep (s.s1, s.s2) b).2 })

/-- R83: BEGCH. -/
def Obligations.BegchOpensAChunk : Prop :=
  ∀ tag len : Word, decode (0x30#8 ++ tag ++ len) = .command (.begch tag len)
  ∧ ∀ s : State, s.fault = false →
    (s.chopen = true → exec (.begch tag len) s = .next { s with fault := true, cause := 2#4 })
    ∧ (s.chopen = false → s.olen.toNat + 8 > s.obufCap.toNat →
        exec (.begch tag len) s = .next { s with fault := true, cause := 5#4 })
    ∧ (s.chopen = false → s.olen.toNat + 8 ≤ s.obufCap.toNat →
        exec (.begch tag len) s = .next { s with
          obuf := Memory.writeSeq s.obuf s.olen.toNat
            [len.extractLsb' 24 8, len.extractLsb' 16 8, len.extractLsb' 8 8, len.extractLsb' 0 8,
             tag.extractLsb' 24 8, tag.extractLsb' 16 8, tag.extractLsb' 8 8, tag.extractLsb' 0 8]
          olen := s.olen + 8#64
          crc := crcFold 0xFFFFFFFF#32
            [tag.extractLsb' 24 8, tag.extractLsb' 16 8, tag.extractLsb' 8 8, tag.extractLsb' 0 8]
          crcv := true, dlen := len, wcnt := 0#32, chopen := true })

/-- R82: WRB. -/
def Obligations.WrbAppendsAndFolds : Prop :=
  ∀ b : Byte, decode (0x3100000000000000#64 ++ b) = .command (.wrb b)
  ∧ ∀ s : State, s.fault = false →
    (s.chopen = false → exec (.wrb b) s = .next { s with fault := true, cause := 2#4 })
    ∧ (s.chopen = true → s.wcnt = s.dlen → exec (.wrb b) s = .next { s with fault := true, cause := 4#4 })
    ∧ (s.chopen = true → s.wcnt ≠ s.dlen → s.olen.toNat + 1 > s.obufCap.toNat →
        exec (.wrb b) s = .next { s with fault := true, cause := 5#4 })
    ∧ (s.chopen = true → s.wcnt ≠ s.dlen → s.olen.toNat + 1 ≤ s.obufCap.toNat →
        exec (.wrb b) s = .next { s with
          obuf := Memory.write s.obuf s.olen.toNat b, olen := s.olen + 1#64
          crc := crcStep s.crc b, wcnt := s.wcnt + 1#32 })

/-- R84: WRAB. -/
def Obligations.WrabFoldsBothAndAppends : Prop :=
  ∀ b : Byte, decode (0x3200000000000000#64 ++ b) = .command (.wrab b)
  ∧ ∀ s : State, s.fault = false →
    (s.chopen = false → exec (.wrab b) s = .next { s with fault := true, cause := 2#4 })
    ∧ (s.chopen = true → s.adlv = false → exec (.wrab b) s = .next { s with fault := true, cause := 3#4 })
    ∧ (s.chopen = true → s.adlv = true → s.wcnt = s.dlen →
        exec (.wrab b) s = .next { s with fault := true, cause := 4#4 })
    ∧ (s.chopen = true → s.adlv = true → s.wcnt ≠ s.dlen → s.olen.toNat + 1 > s.obufCap.toNat →
        exec (.wrab b) s = .next { s with fault := true, cause := 5#4 })
    ∧ (s.chopen = true → s.adlv = true → s.wcnt ≠ s.dlen → s.olen.toNat + 1 ≤ s.obufCap.toNat →
        exec (.wrab b) s = .next { s with
          s1 := (adlerStep (s.s1, s.s2) b).1, s2 := (adlerStep (s.s1, s.s2) b).2
          obuf := Memory.write s.obuf s.olen.toNat b, olen := s.olen + 1#64
          crc := crcStep s.crc b, wcnt := s.wcnt + 1#32 })

/-- R85: WRADL. -/
def Obligations.WradlWritesTheCombinedValue : Prop :=
  decode 0x330000000000000000#72 = .command .wradl
  ∧ ∀ s : State, s.fault = false →
    (s.chopen = false → exec .wradl s = .next { s with fault := true, cause := 2#4 })
    ∧ (s.chopen = true → s.adlv = false → exec .wradl s = .next { s with fault := true, cause := 3#4 })
    ∧ (s.chopen = true → s.adlv = true → s.wcnt.toNat + 4 > s.dlen.toNat →
        exec .wradl s = .next { s with fault := true, cause := 4#4 })
    ∧ (s.chopen = true → s.adlv = true → s.wcnt.toNat + 4 ≤ s.dlen.toNat → s.olen.toNat + 4 > s.obufCap.toNat →
        exec .wradl s = .next { s with fault := true, cause := 5#4 })
    ∧ (s.chopen = true → s.adlv = true → s.wcnt.toNat + 4 ≤ s.dlen.toNat → s.olen.toNat + 4 ≤ s.obufCap.toNat →
        exec .wradl s = .next { s with
          obuf := Memory.writeSeq s.obuf s.olen.toNat
            [s.s2.extractLsb' 8 8, s.s2.extractLsb' 0 8, s.s1.extractLsb' 8 8, s.s1.extractLsb' 0 8]
          olen := s.olen + 4#64
          crc := crcFold s.crc [s.s2.extractLsb' 8 8, s.s2.extractLsb' 0 8, s.s1.extractLsb' 8 8, s.s1.extractLsb' 0 8]
          wcnt := s.wcnt + 4#32 })

/-- R86: ENDCH. -/
def Obligations.EndchAppendsTheComplementAndCloses : Prop :=
  decode 0x340000000000000000#72 = .command .endch
  ∧ ∀ s : State, s.fault = false →
    (s.chopen = false → exec .endch s = .next { s with fault := true, cause := 2#4 })
    ∧ (s.chopen = true → s.wcnt ≠ s.dlen → exec .endch s = .next { s with fault := true, cause := 4#4 })
    ∧ (s.chopen = true → s.wcnt = s.dlen → s.olen.toNat + 4 > s.obufCap.toNat →
        exec .endch s = .next { s with fault := true, cause := 5#4 })
    ∧ (s.chopen = true → s.wcnt = s.dlen → s.olen.toNat + 4 ≤ s.obufCap.toNat →
        exec .endch s = .next { s with
          obuf := Memory.writeSeq s.obuf s.olen.toNat
            [(~~~s.crc).extractLsb' 24 8, (~~~s.crc).extractLsb' 16 8, (~~~s.crc).extractLsb' 8 8,
             (~~~s.crc).extractLsb' 0 8]
          olen := s.olen + 4#64
          chopen := false })

/-! ### The engines (R60 to R62, R65, R70, R71, R74) -/

/-- R60: `TBL[n] = g8(n)` for the sequence of the generation rule, and it is the table listed: 256 entries in the order
printed. The polynomial and the table are the spec's general knowledge (log entry 7). -/
def Obligations.CrcTableIsTheListing : Prop :=
  (∀ n : Byte, ∃ g : Nat → Word, g 0 = n.setWidth 32
    ∧ (∀ k < 8, (g k).getLsbD 0 = true → g (k + 1) = (g k >>> 1) ^^^ 0xEDB88320#32)
    ∧ (∀ k < 8, (g k).getLsbD 0 = false → g (k + 1) = g k >>> 1)
    ∧ tbl n = g 8)
  ∧ tblListing.length = 256 ∧ ∀ n : Byte, tblListing[n.toNat]? = some (tbl n)

/-- R61, its table expression and the equality the spec derives from it: the table step is eight bit steps from `c ^
zext_32(b)`. -/
def Obligations.CrcStepIsEightBitSteps : Prop :=
  ∀ (c : Word) (b : Byte),
    crcStep c b = tbl ((c ^^^ b.setWidth 32).extractLsb' 0 8) ^^^ (c >>> 8)
    ∧ crcStep c b = crcBitSteps 8 (c ^^^ b.setWidth 32)

/-- R62 (the cut is derived by the spec): a sequence may be cut anywhere and folded piece by piece; the CRC of a
sequence is the complement of its fold from all ones. -/
def Obligations.CrcFoldCutsAnywhere : Prop :=
  (∀ c : Word, crcFold c [] = c)
  ∧ (∀ (c : Word) (b : Byte) (rest : List Byte), crcFold c (b :: rest) = crcFold (crcStep c b) rest)
  ∧ (∀ (c : Word) (s t : List Byte), crcFold c (s ++ t) = crcFold (crcFold c s) t)
  ∧ ∀ s : List Byte, crcOf s = ~~~(crcFold 0xFFFFFFFF#32 s)

/-- R65 (derived by the spec from R62 to R64, R82, R83): `CRCINIT; CRCB s0; ...` with no chunk open leaves the fold of
the sequence in CRC and changes nothing else but CRCV, and the CRC of the sequence is the complement of status register
1; `BEGCH tag, len` followed by `WRB` of a payload, when it does not fault, leaves the fold of tag and payload. -/
def Obligations.CrcCommandsComputeTheFold : Prop :=
  (∀ (s : State) (bs : List Byte), s.fault = false → s.chopen = false →
    ∃ t, execList (.crcinit :: bs.map .crcb) s = .next t
      ∧ t = { s with crc := crcFold 0xFFFFFFFF#32 bs, crcv := true } ∧ t.statusValue 1#3 = some (~~~(crcOf bs)))
  ∧ ∀ (s t : State) (tag len : Word) (p : List Byte),
    execList (.begch tag len :: p.map .wrb) s = .next t → t.fault = false →
    t.crc = crcFold 0xFFFFFFFF#32 (be32 tag ++ p)

/-- R70: for a pair in range, `s1' = (s1 + b) mod 65521` and `s2' = (s2 + s1') mod 65521` over the naturals, each sum
below `2 * 65521`, and the results are in range again. -/
def Obligations.AdlerStepStaysInRange : Prop :=
  ∀ (s1 s2 : Half) (b : Byte), s1.toNat < 65521 → s2.toNat < 65521 →
    (adlerStep (s1, s2) b).1.toNat = (s1.toNat + b.toNat) % 65521
    ∧ (adlerStep (s1, s2) b).2.toNat = (s2.toNat + (adlerStep (s1, s2) b).1.toNat) % 65521
    ∧ s1.toNat + b.toNat ≤ 65775 ∧ s2.toNat + (adlerStep (s1, s2) b).1.toNat ≤ 131040
    ∧ (adlerStep (s1, s2) b).1.toNat < 65521 ∧ (adlerStep (s1, s2) b).2.toNat < 65521

/-- R71 (the closed form is derived by the spec from R70): the closed form of the fold from (1, 0) for a sequence of
length n, and the combined value, whose halves do not overlap; the checksum of a sequence is the combined value of its
fold, and that of the empty sequence is 1. -/
def Obligations.AdlerFoldClosedForm : Prop :=
  (∀ p : Half × Half, adlerFold p [] = p)
  ∧ (∀ (p : Half × Half) (b : Byte) (rest : List Byte), adlerFold p (b :: rest) = adlerFold (adlerStep p b) rest) ∧
  (∀ s : List Byte,
    (adlerFold (1#16, 0#16) s).1.toNat = (1 + (s.map BitVec.toNat).sum) % 65521
    ∧ (adlerFold (1#16, 0#16) s).2.toNat
        = (s.length + ((List.range s.length).map fun k => (s.length - k) * (s.getD k 0#8).toNat).sum) % 65521)
  ∧ (∀ s1 s2 : Half, (combined s1 s2).toNat = s2.toNat * 65536 + s1.toNat)
  ∧ (∀ s : List Byte, adlerOf s = combined (adlerFold (1#16, 0#16) s).1 (adlerFold (1#16, 0#16) s).2)
  ∧ adlerOf [] = 1#32

/-- R74 (derived by the spec from R70 to R73, R84): `ADLINIT; ADLB s0; ...` leaves the fold of the sequence from (1, 0)
and changes nothing else but ADLV, in any chunk state; `WRAB b`, when it does not fault, updates the pair as `ADLB b`
does. -/
def Obligations.AdlerCommandsComputeTheFold : Prop :=
  (∀ (s : State) (bs : List Byte), s.fault = false →
    execList (.adlinit :: bs.map .adlb) s = .next { s with
      s1 := (adlerFold (1#16, 0#16) bs).1, s2 := (adlerFold (1#16, 0#16) bs).2, adlv := true })
  ∧ ∀ (s t u : State) (b : Byte), s.fault = false → exec (.wrab b) s = .next t → t.fault = false →
    exec (.adlb b) s = .next u → t.s1 = u.s1 ∧ t.s2 = u.s2 ∧ t.adlv = u.adlv

/-- R84: `WRAB b` has exactly the effect of `ADLB b; WRB b` when neither faults. -/
def Obligations.WrabIsAdlbThenWrb : Prop :=
  ∀ (s t : State) (b : Byte), t.fault = false →
    (exec (.wrab b) s = .next t ↔ execList [.adlb b, .wrb b] s = .next t)

/-- R85: `WRADL`, when it does not fault, is four `WRB` of the bytes of the combined value. -/
def Obligations.WradlIsFourWrb : Prop :=
  ∀ s t : State, t.fault = false → exec .wradl s = .next t →
    execList [.wrb (s.s2.extractLsb' 8 8), .wrb (s.s2.extractLsb' 0 8), .wrb (s.s1.extractLsb' 8 8),
      .wrb (s.s1.extractLsb' 0 8)] s = .next t

/-! ### Invariants (10_state.md R21, R22) -/

/-- R22, R23: the invariants hold after reset, for every legal capacity, and at `State.reset`. -/
def Obligations.InvariantsHoldAfterReset : Prop :=
  (∀ cap : Offset, cap ≠ 0#64 → Inv (resetWithCapacity cap)) ∧ Inv State.reset

/-- R22 items 1 to 5: every step keeps them, with OBUF dense below OLEN and the capacity legal, from every state that
meets them. -/
def Obligations.EveryStepKeepsTheInvariants : Prop :=
  ∀ s t : State, Inv s → step s = .next t → Inv t

/-- R22 item 6, R20: a step that takes neither the reset input nor a `CLR` word keeps every byte of the output and may
only add bytes at its end. -/
def Obligations.OutputOnlyGrows : Prop :=
  ∀ s t : State, Inv s → step s = .next t → s.port.head? ≠ some .rst →
    s.port.head? ≠ some (.cmd 0x010000000000000000#72) → outputBytes s <+: outputBytes t

/-- R13, R21, R23: a register whose valid bit is 0 holds no value: two states that differ only in such registers stay so
under every step and answer every read alike. -/
def Obligations.UninitialisedRegistersNeverMatter : Prop :=
  ∀ s t : State, Inv s → SameSpecified s t →
    (∀ s', step s = .next s' → ∃ t', step t = .next t' ∧ SameSpecified s' t')
    ∧ (∀ f, step s = .fault f → step t = .fault f)
    ∧ (∀ r, step s = .refused r → step t = .refused r)

/-- R36, R38, R45: from a state that meets the invariants no step ends in a fault outcome, and the only step that is
refused is a buffer read at or above OLEN. -/
def Obligations.OnlyReadsBeyondOlenAreRefused : Prop :=
  ∀ s : State, Inv s →
    (∀ f, step s ≠ .fault f)
    ∧ ∀ r, step s = .refused r → ∃ a rest, s.port = .bufRead a :: rest ∧ s.olen.toNat ≤ a.toNat
        ∧ r = .readBeyondOlen a

/-! ### Chunks, host sequences and runs (R88, R105 to R115, R143) -/

/-- R88 (derived by the spec from R81 to R87): a command list without `CLR` that starts outside a chunk and ends outside
a chunk without a fault has appended the bytes of its `RAWB`s and of complete chunks, in order, and each chunk's
declared length is its payload's size. -/
def Obligations.EveryChunkIsWellFormed : Prop :=
  ∀ (s t : State) (is : List Instr), Inv s → s.chopen = false → .clr ∉ is → execList is s = .next t →
    t.fault = false → t.chopen = false →
    outputBytes t = outputBytes s ++ (segments (s.s1, s.s2) none is).flatMap Segment.bytes
    ∧ ∀ g ∈ segments (s.s1, s.s2) none is, g.lengthAgrees

/-- R105 (derived by the spec from R82, R83, R86): `CHUNK tag, p` never raises E_LEN, and with room for its bytes it
appends the `12 + n` bytes of the chunk. -/
def Obligations.ChunkSequenceAppendsItsBytes : Prop :=
  ∀ (s : State) (tag : Word) (p : List Byte), Inv s → s.fault = false → s.chopen = false → p.length < 2 ^ 32 →
    (∀ t, execList (chunkSeq tag p) s = .next t → t.cause ≠ 4#4)
    ∧ (s.olen.toNat + 12 + p.length ≤ s.obufCap.toNat →
      ∃ t, execList (chunkSeq tag p) s = .next t ∧ t.fault = false ∧ t.chopen = false
        ∧ outputBytes t = outputBytes s ++ (be32 (BitVec.ofNat 32 p.length) ++ be32 tag ++ p
            ++ be32 (~~~(crcFold 0xFFFFFFFF#32 (be32 tag ++ p)))))

/-- R108, R109: the payload of the image-data chunk is exactly IDATLEN bytes. -/
def Obligations.ImageDataPayloadHasTheDeclaredLength : Prop :=
  ∀ (hdr : Byte × Byte) (img : Image), img.mayStart = true →
    (idatPayload hdr img).length = 2 + img.height * (5 + 1 + img.width * img.mode.bppSer) + 4

/-- R113 (derived by the spec from R105 to R112): the length of the file's bytes, which is what OLEN counts when no
fault occurs, and the number of commands of `FILE`, by the two formulas. -/
def Obligations.FileLengthAndCommandCount : Prop :=
  ∀ (hdr : Byte × Byte) (img : Image), img.mayStart = true →
    (fileBytes hdr img).length
      = 8 + 25 + (if img.mode = .palette then (12 + 3 * max img.palette.length 16) + (12 + max img.palette.length 16) else 0)
          + (12 + (2 + img.height * (5 + 1 + img.width * img.mode.bppSer) + 4)) + 12
    ∧ (fileSeq hdr img).length
      = 1 + 8 + 15 + (if img.mode = .palette then (2 + 3 * max img.palette.length 16) + (2 + max img.palette.length 16) else 0)
          + (4 + img.height * (6 + img.width * img.mode.bppSer) + 2) + 2
    ∧ ∀ s t : State, execList (fileSeq hdr img) s = .next t → t.fault = false →
        t.olen.toNat = (fileBytes hdr img).length

/-- R112, R114, R157: for every image the host may start, on any block that is not faulted and has no chunk open and
room for the file, `FILE` completes and the output is exactly the file's bytes, whatever the buffer and the accumulators
held before. -/
def Obligations.FileSequenceYieldsTheFile : Prop :=
  ∀ (s : State) (hdr : Byte × Byte) (img : Image), Inv s → s.fault = false → s.chopen = false →
    img.mayStart = true → img.fileLength ≤ s.obufCap.toNat →
    ∃ t, execList (fileSeq hdr img) s = .next t ∧ complete t = true ∧ outputBytes t = fileBytes hdr img

/-- R115 (derived by the spec from R105 to R112): undoing the stored-block framing of the image-data payload yields the
scanlines, each a filter byte 0 followed by its row; the last four bytes are the Adler checksum of the scanlines. -/
def Obligations.ImageDataStripsToTheScanlines : Prop :=
  ∀ (hdr : Byte × Byte) (img : Image), img.mayStart = true →
    stripRecords img.height (1 + img.width * img.mode.bppSer) ((idatPayload hdr img).drop 2)
      = img.rows.map (fun r => 0x00#8 :: rowBytes img.mode r)
    ∧ (idatPayload hdr img).drop ((idatPayload hdr img).length - 4)
      = be32 (adlerOf (img.rows.map (fun r => 0x00#8 :: rowBytes img.mode r)).flatten)

/-- R143: a run of the words of a command list, issued from the reset state, ends in the state of the command list. -/
def Obligations.RunOfTheWordsIsTheCommandList : Prop :=
  ∀ (cap : Offset) (is : List Instr), run cap (is.map encode) = execList is (resetWithCapacity cap)
end

