-- ==== Sys2Proof/Laws/Decode.lean ====
section
/-! SUPPORT. The fields of a command word, and what the two operand formats do to them (30_encoding.md R46, R47). -/

namespace Sys2Proof

/-- The fields of a joined word are the fields it was joined from (R46). -/
@[simp] theorem splitWord_joinWord (c : RawCommand) : splitWord (joinWord c) = c := by
  obtain ⟨op, a, b⟩ := c
  simp only [splitWord, joinWord, RawCommand.mk.injEq]
  refine ⟨?_, ?_, ?_⟩ <;> apply BitVec.eq_of_getLsbD_eq <;> intro i hi <;>
    simp only [BitVec.getLsbD_extractLsb', BitVec.getLsbD_append, hi, decide_true, Bool.true_and]
  · rw [if_neg (by omega), if_neg (by omega)]
    congr 1
    omega
  · rw [if_neg (by omega), if_pos (by omega)]
    congr 1
    omega
  · rw [if_pos (by omega)]
    congr 1
    omega

/-- The fields of a word are all of it (R46: 8 + 32 + 32 bits). -/
@[simp] theorem joinWord_splitWord (w : CmdWord) : joinWord (splitWord w) = w := by
  simp only [splitWord, joinWord]
  apply BitVec.eq_of_getLsbD_eq
  intro i hi
  simp only [BitVec.getLsbD_extractLsb', BitVec.getLsbD_append]
  split
  · next h => simp [h]
  · split
    · next h1 h2 =>
      simp [h2]
      congr 1
      omega
    · next h1 h2 =>
      simp
      rw [show 64 + (i - 32 - 32) = i by omega]
      simp
      intro h
      have := BitVec.lt_of_getLsbD h
      omega

/-- Masking a word masks each field. -/
theorem joinWord_and (c d : RawCommand) :
    joinWord c &&& joinWord d = joinWord ⟨c.op &&& d.op, c.a &&& d.a, c.b &&& d.b⟩ := by
  simp only [joinWord]
  apply BitVec.eq_of_getLsbD_eq
  intro i hi
  simp only [BitVec.getLsbD_and, BitVec.getLsbD_append]
  split
  · rfl
  · split <;> rfl

/-- The B field of a format-B command has zeros above the byte (R47). -/
@[simp] theorem setWidth_high (b : Byte) : (BitVec.setWidth 32 b).extractLsb' 8 24 = 0#24 := by
  apply BitVec.eq_of_getLsbD_eq
  intro j hj
  simp [BitVec.getLsbD_setWidth]

/-- The byte of a format-B command's B field is its operand (R48). -/
@[simp] theorem setWidth_low (b : Byte) : (BitVec.setWidth 32 b).extractLsb' 0 8 = b := by
  apply BitVec.eq_of_getLsbD_eq
  intro j hj
  simp [BitVec.getLsbD_setWidth, hj]
  omega

end Sys2Proof
end

