-- ==== Sys2Proof/Laws/Memory.lean ====
section
/-! SUPPORT. Laws of the output buffer: read after write, and that every operation keeps the canonical form. -/

namespace Sys2Proof.Machine

theorem Memory.read_write_same (m : List Host.Cell) (a : Nat) (b : Byte) :
    Memory.read (Memory.write m a b) a = some b := by
  induction m with
  | nil => simp [Memory.write, Memory.read]
  | cons c m ih =>
    obtain ⟨k, v⟩ := c
    simp only [Memory.write]
    split
    · simp [Memory.read]
    · split
      · simp [Memory.read]
      · simp_all [Memory.read]

theorem Memory.read_write_other (m : List Host.Cell) {a a' : Nat} (b : Byte) (h : a' ≠ a) :
    Memory.read (Memory.write m a b) a' = Memory.read m a' := by
  induction m with
  | nil => simp [Memory.write, Memory.read, Ne.symm h]
  | cons c m ih =>
    obtain ⟨k, v⟩ := c
    simp only [Memory.write]
    split
    · simp [Memory.read, Ne.symm h]
    · split
      · next hk => subst hk; simp [Memory.read, Ne.symm h]
      · simp [Memory.read, ih]

theorem Memory.read_writeSeq_other (bs : List Byte) (m : List Host.Cell) (a a' : Nat)
    (h : a' < a ∨ a + bs.length ≤ a') : Memory.read (Memory.writeSeq m a bs) a' = Memory.read m a' := by
  induction bs generalizing m a with
  | nil => rfl
  | cons b bs ih =>
    simp only [List.length_cons] at h
    rw [Memory.writeSeq, ih _ _ (by omega), Memory.read_write_other _ _ (by omega)]

theorem Memory.read_writeSeq_get (bs : List Byte) (m : List Host.Cell) (a k : Nat) (b : Byte)
    (h : bs[k]? = some b) : Memory.read (Memory.writeSeq m a bs) (a + k) = some b := by
  induction bs generalizing m a k with
  | nil => simp at h
  | cons c bs ih =>
    cases k with
    | zero =>
      rw [Memory.writeSeq, Memory.read_writeSeq_other _ _ _ _ (by omega)]
      simp_all [Memory.read_write_same]
    | succ k =>
      rw [Memory.writeSeq, show a + (k + 1) = a + 1 + k by omega]
      exact ih _ _ _ (by simpa using h)

/-- The canonical form of a memory with a cell in front: every later offset is higher. -/
theorem Memory.wf_cons (k : Nat) (v : Byte) (m : List Host.Cell) :
    Memory.wf ((k, v) :: m) = true ↔ Memory.wf m = true ∧ ∀ c ∈ m, k < c.1 := by
  induction m generalizing k v with
  | nil => simp [Memory.wf]
  | cons c m ih =>
    obtain ⟨l, w⟩ := c
    simp only [Memory.wf, Bool.and_eq_true, decide_eq_true_eq, List.mem_cons, forall_eq_or_imp]
    constructor
    · rintro ⟨hkl, hwf⟩
      exact ⟨hwf, hkl, fun c hc => lt_trans hkl (((ih l w).1 hwf).2 c hc)⟩
    · rintro ⟨hwf, hkl, -⟩
      exact ⟨hkl, hwf⟩

theorem Memory.mem_write {m : List Host.Cell} {a : Nat} {b : Byte} {c : Host.Cell} (h : c ∈ Memory.write m a b) :
    c = (a, b) ∨ c ∈ m := by
  induction m with
  | nil => simpa [Memory.write] using h
  | cons d m ih =>
    obtain ⟨k, v⟩ := d
    simp only [Memory.write] at h
    split at h
    · simpa using h
    · split at h <;> simp only [List.mem_cons] at h ⊢ <;> tauto

theorem Memory.wf_write (m : List Host.Cell) (a : Nat) (b : Byte) (h : Memory.wf m = true) :
    Memory.wf (Memory.write m a b) = true := by
  induction m with
  | nil => rfl
  | cons c m ih =>
    obtain ⟨k, v⟩ := c
    have hm := (Memory.wf_cons k v m).1 h
    simp only [Memory.write]
    split
    · next hak =>
      refine (Memory.wf_cons _ _ _).2 ⟨h, ?_⟩
      simp only [List.mem_cons, forall_eq_or_imp]
      exact ⟨hak, fun c hc => lt_trans hak (hm.2 c hc)⟩
    · split
      · next hk => exact (Memory.wf_cons _ _ _).2 ⟨hm.1, hk ▸ hm.2⟩
      · refine (Memory.wf_cons _ _ _).2 ⟨ih hm.1, fun c hc => ?_⟩
        rcases Memory.mem_write hc with rfl | hc
        · show k < a; omega
        · exact hm.2 c hc

theorem Memory.wf_writeSeq (bs : List Byte) (m : List Host.Cell) (a : Nat) (h : Memory.wf m = true) :
    Memory.wf (Memory.writeSeq m a bs) = true := by
  induction bs generalizing m a with
  | nil => exact h
  | cons b bs ih => exact ih _ _ (Memory.wf_write _ _ _ h)

/-- A write above every listed offset goes to the end. -/
theorem Memory.write_above (m : List Host.Cell) (a : Nat) (b : Byte) (h : ∀ c ∈ m, c.1 < a) :
    Memory.write m a b = m ++ [(a, b)] := by
  induction m with
  | nil => rfl
  | cons c m ih =>
    obtain ⟨k, v⟩ := c
    simp only [List.mem_cons, forall_eq_or_imp] at h
    simp only [Memory.write, List.cons_append]
    rw [if_neg (by omega), if_neg (by omega), ih h.2]

/-- A write at the end of a dense buffer extends it. -/
theorem Memory.write_dense (m : List Host.Cell) (n : Nat) (b : Byte) (h : m.map Prod.fst = List.range n) :
    Memory.write m n b = m ++ [(n, b)] := by
  refine Memory.write_above m n b fun c hc => ?_
  have : c.1 ∈ List.range n := h ▸ List.mem_map_of_mem hc
  simpa using this

/-- A byte sequence written at the end of a dense buffer extends it by these bytes, and it stays dense. -/
theorem Memory.writeSeq_dense (bs : List Byte) (m : List Host.Cell) (n : Nat) (h : m.map Prod.fst = List.range n) :
    (Memory.writeSeq m n bs).map Prod.fst = List.range (n + bs.length)
      ∧ (Memory.writeSeq m n bs).map Prod.snd = m.map Prod.snd ++ bs := by
  induction bs generalizing m n with
  | nil => simpa [Memory.writeSeq] using h
  | cons b bs ih =>
    have hd : (Memory.write m n b).map Prod.fst = List.range (n + 1) := by
      rw [Memory.write_dense m n b h, List.map_append, h, List.range_succ]; rfl
    obtain ⟨h1, h2⟩ := ih (Memory.write m n b) (n + 1) hd
    refine ⟨by rw [Memory.writeSeq, h1, List.length_cons]; congr 1; omega, ?_⟩
    rw [Memory.writeSeq, h2, Memory.write_dense m n b h]
    simp

/-- A dense buffer is in canonical form. -/
theorem Memory.wf_of_dense (m : List Host.Cell) (h : (m.map Prod.fst).Pairwise (· < ·)) : Memory.wf m = true := by
  induction m with
  | nil => rfl
  | cons c m ih =>
    obtain ⟨k, v⟩ := c
    simp only [List.map_cons, List.pairwise_cons, List.mem_map, forall_exists_index, and_imp,
      forall_apply_eq_imp_iff₂] at h
    exact (Memory.wf_cons _ _ _).2 ⟨ih h.2, h.1⟩

/-- Reading a dense buffer below its end gives the byte at that place of the byte sequence. -/
theorem Memory.read_dense (m : List Host.Cell) (j n a : Nat) (h : m.map Prod.fst = List.range' j n) (hj : j ≤ a) :
    Memory.read m a = (m.map Prod.snd)[a - j]? := by
  induction m generalizing j n with
  | nil => simp [Memory.read]
  | cons c m ih =>
    obtain ⟨k, v⟩ := c
    cases n with
    | zero => simp at h
    | succ n =>
      simp only [List.range'_succ, List.map_cons, List.cons.injEq] at h
      obtain ⟨rfl, hm⟩ := h
      simp only [Memory.read, List.map_cons]
      split
      · next hk => simp [hk]
      · have hlt : k + 1 ≤ a := by omega
        rw [ih (k + 1) n hm hlt, show a - k = (a - (k + 1)) + 1 by omega, List.getElem?_cons_succ]

end Sys2Proof.Machine
end

