-- ==== Sys2Proof/Laws/State.lean ====
section
/-! SUPPORT. What each named update of a state leaves in each field, one lemma a field, so that no later proof unfolds a
record update. -/

namespace Sys2Proof.Machine

@[simp] theorem State.append_crc (b : Byte) (s : State) : (s.append b).crc = s.crc := rfl
@[simp] theorem State.append_s1 (b : Byte) (s : State) : (s.append b).s1 = s.s1 := rfl
@[simp] theorem State.append_s2 (b : Byte) (s : State) : (s.append b).s2 = s.s2 := rfl
@[simp] theorem State.append_dlen (b : Byte) (s : State) : (s.append b).dlen = s.dlen := rfl
@[simp] theorem State.append_wcnt (b : Byte) (s : State) : (s.append b).wcnt = s.wcnt := rfl
@[simp] theorem State.append_olen (b : Byte) (s : State) : (s.append b).olen = s.olen + 1#64 := rfl
@[simp] theorem State.append_chopen (b : Byte) (s : State) : (s.append b).chopen = s.chopen := rfl
@[simp] theorem State.append_crcv (b : Byte) (s : State) : (s.append b).crcv = s.crcv := rfl
@[simp] theorem State.append_adlv (b : Byte) (s : State) : (s.append b).adlv = s.adlv := rfl
@[simp] theorem State.append_fault (b : Byte) (s : State) : (s.append b).fault = s.fault := rfl
@[simp] theorem State.append_cause (b : Byte) (s : State) : (s.append b).cause = s.cause := rfl
@[simp] theorem State.append_obuf (b : Byte) (s : State) : (s.append b).obuf = Memory.write s.obuf s.olen.toNat b := rfl
@[simp] theorem State.append_obufCap (b : Byte) (s : State) : (s.append b).obufCap = s.obufCap := rfl
@[simp] theorem State.append_port (b : Byte) (s : State) : (s.append b).port = s.port := rfl
@[simp] theorem State.append_srData (b : Byte) (s : State) : (s.append b).srData = s.srData := rfl
@[simp] theorem State.append_rdData (b : Byte) (s : State) : (s.append b).rdData = s.rdData := rfl
@[simp] theorem State.append_draws (b : Byte) (s : State) : (s.append b).draws = s.draws := rfl

@[simp] theorem State.appendSeq_crc (bs : List Byte) (s : State) : (s.appendSeq bs).crc = s.crc := by
  induction bs generalizing s with
  | nil => rfl
  | cons b bs ih => exact ih _

@[simp] theorem State.appendSeq_s1 (bs : List Byte) (s : State) : (s.appendSeq bs).s1 = s.s1 := by
  induction bs generalizing s with
  | nil => rfl
  | cons b bs ih => exact ih _

@[simp] theorem State.appendSeq_s2 (bs : List Byte) (s : State) : (s.appendSeq bs).s2 = s.s2 := by
  induction bs generalizing s with
  | nil => rfl
  | cons b bs ih => exact ih _

@[simp] theorem State.appendSeq_dlen (bs : List Byte) (s : State) : (s.appendSeq bs).dlen = s.dlen := by
  induction bs generalizing s with
  | nil => rfl
  | cons b bs ih => exact ih _

@[simp] theorem State.appendSeq_wcnt (bs : List Byte) (s : State) : (s.appendSeq bs).wcnt = s.wcnt := by
  induction bs generalizing s with
  | nil => rfl
  | cons b bs ih => exact ih _

@[simp] theorem State.appendSeq_chopen (bs : List Byte) (s : State) : (s.appendSeq bs).chopen = s.chopen := by
  induction bs generalizing s with
  | nil => rfl
  | cons b bs ih => exact ih _

@[simp] theorem State.appendSeq_crcv (bs : List Byte) (s : State) : (s.appendSeq bs).crcv = s.crcv := by
  induction bs generalizing s with
  | nil => rfl
  | cons b bs ih => exact ih _

@[simp] theorem State.appendSeq_adlv (bs : List Byte) (s : State) : (s.appendSeq bs).adlv = s.adlv := by
  induction bs generalizing s with
  | nil => rfl
  | cons b bs ih => exact ih _

@[simp] theorem State.appendSeq_fault (bs : List Byte) (s : State) : (s.appendSeq bs).fault = s.fault := by
  induction bs generalizing s with
  | nil => rfl
  | cons b bs ih => exact ih _

@[simp] theorem State.appendSeq_cause (bs : List Byte) (s : State) : (s.appendSeq bs).cause = s.cause := by
  induction bs generalizing s with
  | nil => rfl
  | cons b bs ih => exact ih _

@[simp] theorem State.appendSeq_obufCap (bs : List Byte) (s : State) : (s.appendSeq bs).obufCap = s.obufCap := by
  induction bs generalizing s with
  | nil => rfl
  | cons b bs ih => exact ih _

@[simp] theorem State.appendSeq_port (bs : List Byte) (s : State) : (s.appendSeq bs).port = s.port := by
  induction bs generalizing s with
  | nil => rfl
  | cons b bs ih => exact ih _

@[simp] theorem State.appendSeq_srData (bs : List Byte) (s : State) : (s.appendSeq bs).srData = s.srData := by
  induction bs generalizing s with
  | nil => rfl
  | cons b bs ih => exact ih _

@[simp] theorem State.appendSeq_rdData (bs : List Byte) (s : State) : (s.appendSeq bs).rdData = s.rdData := by
  induction bs generalizing s with
  | nil => rfl
  | cons b bs ih => exact ih _

@[simp] theorem State.appendSeq_draws (bs : List Byte) (s : State) : (s.appendSeq bs).draws = s.draws := by
  induction bs generalizing s with
  | nil => rfl
  | cons b bs ih => exact ih _

@[simp] theorem State.emitCovered_crc (bs : List Byte) (s : State) :
    (s.emitCovered bs).crc = crcFold s.crc bs := rfl
@[simp] theorem State.emitCovered_s1 (bs : List Byte) (s : State) : (s.emitCovered bs).s1 = s.s1 := by
  simp [State.emitCovered]
@[simp] theorem State.emitCovered_s2 (bs : List Byte) (s : State) : (s.emitCovered bs).s2 = s.s2 := by
  simp [State.emitCovered]
@[simp] theorem State.emitCovered_dlen (bs : List Byte) (s : State) : (s.emitCovered bs).dlen = s.dlen := by
  simp [State.emitCovered]
@[simp] theorem State.emitCovered_wcnt (bs : List Byte) (s : State) :
    (s.emitCovered bs).wcnt = s.wcnt + BitVec.ofNat 32 bs.length := rfl
@[simp] theorem State.emitCovered_olen (bs : List Byte) (s : State) :
    (s.emitCovered bs).olen = (s.appendSeq bs).olen := rfl
@[simp] theorem State.emitCovered_chopen (bs : List Byte) (s : State) : (s.emitCovered bs).chopen = s.chopen := by
  simp [State.emitCovered]
@[simp] theorem State.emitCovered_crcv (bs : List Byte) (s : State) : (s.emitCovered bs).crcv = s.crcv := by
  simp [State.emitCovered]
@[simp] theorem State.emitCovered_adlv (bs : List Byte) (s : State) : (s.emitCovered bs).adlv = s.adlv := by
  simp [State.emitCovered]
@[simp] theorem State.emitCovered_fault (bs : List Byte) (s : State) : (s.emitCovered bs).fault = s.fault := by
  simp [State.emitCovered]
@[simp] theorem State.emitCovered_cause (bs : List Byte) (s : State) : (s.emitCovered bs).cause = s.cause := by
  simp [State.emitCovered]
@[simp] theorem State.emitCovered_obuf (bs : List Byte) (s : State) :
    (s.emitCovered bs).obuf = (s.appendSeq bs).obuf := rfl
@[simp] theorem State.emitCovered_obufCap (bs : List Byte) (s : State) : (s.emitCovered bs).obufCap = s.obufCap := by
  simp [State.emitCovered]
@[simp] theorem State.emitCovered_port (bs : List Byte) (s : State) : (s.emitCovered bs).port = s.port := by
  simp [State.emitCovered]
@[simp] theorem State.emitCovered_srData (bs : List Byte) (s : State) : (s.emitCovered bs).srData = s.srData := by
  simp [State.emitCovered]
@[simp] theorem State.emitCovered_rdData (bs : List Byte) (s : State) : (s.emitCovered bs).rdData = s.rdData := by
  simp [State.emitCovered]
@[simp] theorem State.emitCovered_draws (bs : List Byte) (s : State) : (s.emitCovered bs).draws = s.draws := by
  simp [State.emitCovered]

@[simp] theorem State.foldAdler_crc (b : Byte) (s : State) : (s.foldAdler b).crc = s.crc := rfl
@[simp] theorem State.foldAdler_s1 (b : Byte) (s : State) : (s.foldAdler b).s1 = (adlerStep (s.s1, s.s2) b).1 := rfl
@[simp] theorem State.foldAdler_s2 (b : Byte) (s : State) : (s.foldAdler b).s2 = (adlerStep (s.s1, s.s2) b).2 := rfl
@[simp] theorem State.foldAdler_dlen (b : Byte) (s : State) : (s.foldAdler b).dlen = s.dlen := rfl
@[simp] theorem State.foldAdler_wcnt (b : Byte) (s : State) : (s.foldAdler b).wcnt = s.wcnt := rfl
@[simp] theorem State.foldAdler_olen (b : Byte) (s : State) : (s.foldAdler b).olen = s.olen := rfl
@[simp] theorem State.foldAdler_chopen (b : Byte) (s : State) : (s.foldAdler b).chopen = s.chopen := rfl
@[simp] theorem State.foldAdler_crcv (b : Byte) (s : State) : (s.foldAdler b).crcv = s.crcv := rfl
@[simp] theorem State.foldAdler_adlv (b : Byte) (s : State) : (s.foldAdler b).adlv = s.adlv := rfl
@[simp] theorem State.foldAdler_fault (b : Byte) (s : State) : (s.foldAdler b).fault = s.fault := rfl
@[simp] theorem State.foldAdler_cause (b : Byte) (s : State) : (s.foldAdler b).cause = s.cause := rfl
@[simp] theorem State.foldAdler_obuf (b : Byte) (s : State) : (s.foldAdler b).obuf = s.obuf := rfl
@[simp] theorem State.foldAdler_obufCap (b : Byte) (s : State) : (s.foldAdler b).obufCap = s.obufCap := rfl
@[simp] theorem State.foldAdler_port (b : Byte) (s : State) : (s.foldAdler b).port = s.port := rfl
@[simp] theorem State.foldAdler_srData (b : Byte) (s : State) : (s.foldAdler b).srData = s.srData := rfl
@[simp] theorem State.foldAdler_rdData (b : Byte) (s : State) : (s.foldAdler b).rdData = s.rdData := rfl
@[simp] theorem State.foldAdler_draws (b : Byte) (s : State) : (s.foldAdler b).draws = s.draws := rfl

@[simp] theorem State.raise_crc (k : Cause) (s : State) : (s.raise k).crc = s.crc := rfl
@[simp] theorem State.raise_s1 (k : Cause) (s : State) : (s.raise k).s1 = s.s1 := rfl
@[simp] theorem State.raise_s2 (k : Cause) (s : State) : (s.raise k).s2 = s.s2 := rfl
@[simp] theorem State.raise_dlen (k : Cause) (s : State) : (s.raise k).dlen = s.dlen := rfl
@[simp] theorem State.raise_wcnt (k : Cause) (s : State) : (s.raise k).wcnt = s.wcnt := rfl
@[simp] theorem State.raise_olen (k : Cause) (s : State) : (s.raise k).olen = s.olen := rfl
@[simp] theorem State.raise_chopen (k : Cause) (s : State) : (s.raise k).chopen = s.chopen := rfl
@[simp] theorem State.raise_crcv (k : Cause) (s : State) : (s.raise k).crcv = s.crcv := rfl
@[simp] theorem State.raise_adlv (k : Cause) (s : State) : (s.raise k).adlv = s.adlv := rfl
@[simp] theorem State.raise_fault (k : Cause) (s : State) : (s.raise k).fault = true := rfl
@[simp] theorem State.raise_cause (k : Cause) (s : State) : (s.raise k).cause = k.code := rfl
@[simp] theorem State.raise_obuf (k : Cause) (s : State) : (s.raise k).obuf = s.obuf := rfl
@[simp] theorem State.raise_obufCap (k : Cause) (s : State) : (s.raise k).obufCap = s.obufCap := rfl
@[simp] theorem State.raise_port (k : Cause) (s : State) : (s.raise k).port = s.port := rfl
@[simp] theorem State.raise_srData (k : Cause) (s : State) : (s.raise k).srData = s.srData := rfl
@[simp] theorem State.raise_rdData (k : Cause) (s : State) : (s.raise k).rdData = s.rdData := rfl
@[simp] theorem State.raise_draws (k : Cause) (s : State) : (s.raise k).draws = s.draws := rfl

@[simp] theorem State.takeEvent_crc (s : State) : (s.takeEvent).crc = s.crc := rfl
@[simp] theorem State.takeEvent_s1 (s : State) : (s.takeEvent).s1 = s.s1 := rfl
@[simp] theorem State.takeEvent_s2 (s : State) : (s.takeEvent).s2 = s.s2 := rfl
@[simp] theorem State.takeEvent_dlen (s : State) : (s.takeEvent).dlen = s.dlen := rfl
@[simp] theorem State.takeEvent_wcnt (s : State) : (s.takeEvent).wcnt = s.wcnt := rfl
@[simp] theorem State.takeEvent_olen (s : State) : (s.takeEvent).olen = s.olen := rfl
@[simp] theorem State.takeEvent_chopen (s : State) : (s.takeEvent).chopen = s.chopen := rfl
@[simp] theorem State.takeEvent_crcv (s : State) : (s.takeEvent).crcv = s.crcv := rfl
@[simp] theorem State.takeEvent_adlv (s : State) : (s.takeEvent).adlv = s.adlv := rfl
@[simp] theorem State.takeEvent_fault (s : State) : (s.takeEvent).fault = s.fault := rfl
@[simp] theorem State.takeEvent_cause (s : State) : (s.takeEvent).cause = s.cause := rfl
@[simp] theorem State.takeEvent_obuf (s : State) : (s.takeEvent).obuf = s.obuf := rfl
@[simp] theorem State.takeEvent_obufCap (s : State) : (s.takeEvent).obufCap = s.obufCap := rfl
@[simp] theorem State.takeEvent_port (s : State) : (s.takeEvent).port = s.port.tail := rfl
@[simp] theorem State.takeEvent_srData (s : State) : (s.takeEvent).srData = s.srData := rfl
@[simp] theorem State.takeEvent_rdData (s : State) : (s.takeEvent).rdData = s.rdData := rfl
@[simp] theorem State.takeEvent_draws (s : State) : (s.takeEvent).draws = s.draws := rfl

@[simp] theorem State.applyReset_crc (s : State) : (s.applyReset).crc = State.reset.crc := rfl
@[simp] theorem State.applyReset_s1 (s : State) : (s.applyReset).s1 = State.reset.s1 := rfl
@[simp] theorem State.applyReset_s2 (s : State) : (s.applyReset).s2 = State.reset.s2 := rfl
@[simp] theorem State.applyReset_dlen (s : State) : (s.applyReset).dlen = State.reset.dlen := rfl
@[simp] theorem State.applyReset_wcnt (s : State) : (s.applyReset).wcnt = State.reset.wcnt := rfl
@[simp] theorem State.applyReset_olen (s : State) : (s.applyReset).olen = State.reset.olen := rfl
@[simp] theorem State.applyReset_chopen (s : State) : (s.applyReset).chopen = State.reset.chopen := rfl
@[simp] theorem State.applyReset_crcv (s : State) : (s.applyReset).crcv = State.reset.crcv := rfl
@[simp] theorem State.applyReset_adlv (s : State) : (s.applyReset).adlv = State.reset.adlv := rfl
@[simp] theorem State.applyReset_fault (s : State) : (s.applyReset).fault = State.reset.fault := rfl
@[simp] theorem State.applyReset_cause (s : State) : (s.applyReset).cause = State.reset.cause := rfl
@[simp] theorem State.applyReset_obuf (s : State) : (s.applyReset).obuf = State.reset.obuf := rfl
@[simp] theorem State.applyReset_obufCap (s : State) : (s.applyReset).obufCap = s.obufCap := rfl
@[simp] theorem State.applyReset_port (s : State) : (s.applyReset).port = s.port := rfl
@[simp] theorem State.applyReset_srData (s : State) : (s.applyReset).srData = s.srData := rfl
@[simp] theorem State.applyReset_rdData (s : State) : (s.applyReset).rdData = s.rdData := rfl
@[simp] theorem State.applyReset_draws (s : State) : (s.applyReset).draws = s.draws := rfl

end Sys2Proof.Machine
end

