-- ==== Sys2Proof/Laws/Ops.lean ====
section
/-! SUPPORT. What each shared operation can do, said once. -/

namespace Sys2Proof.Machine

/-! ### Appending -/

/-- `AppendSeq` at one stroke, where the cursor does not wrap (R31, R33). -/
theorem State.appendSeq_eq (bs : List Byte) (s : State) (h : s.olen.toNat + bs.length < 2 ^ 64) :
    s.appendSeq bs = { s with
      obuf := Memory.writeSeq s.obuf s.olen.toNat bs, olen := s.olen + BitVec.ofNat 64 bs.length } := by
  induction bs generalizing s with
  | nil => simp [State.appendSeq, Memory.writeSeq]
  | cons b bs ih =>
    simp only [List.length_cons] at h
    have h1 : (s.append b).olen.toNat = s.olen.toNat + 1 := by
      simp only [State.append_olen, BitVec.toNat_add, BitVec.toNat_ofNat]; omega
    rw [State.appendSeq, ih (s.append b) (by omega), h1]
    simp only [State.append, Memory.writeSeq, List.length_cons, State.mk.injEq, true_and, and_true]
    apply BitVec.eq_of_toNat_eq
    simp only [BitVec.toNat_add, BitVec.toNat_ofNat]
    omega

theorem State.appendSeq_olen_toNat (bs : List Byte) (s : State) (h : s.olen.toNat + bs.length < 2 ^ 64) :
    (s.appendSeq bs).olen.toNat = s.olen.toNat + bs.length := by
  rw [State.appendSeq_eq bs s h]
  simp only [BitVec.toNat_add, BitVec.toNat_ofNat]
  omega

theorem State.appendSeq_obuf (bs : List Byte) (s : State) (h : s.olen.toNat + bs.length < 2 ^ 64) :
    (s.appendSeq bs).obuf = Memory.writeSeq s.obuf s.olen.toNat bs := by
  rw [State.appendSeq_eq bs s h]

/-- Room for `n` bytes: the capacity check passes (R33). -/
theorem State.lacksRoom_eq_false (s : State) (n : Nat) :
    s.lacksRoom n = false ↔ s.olen.toNat + n ≤ s.obufCap.toNat := by
  simp [State.lacksRoom, exceeds]

theorem State.lacksRoom_eq_true (s : State) (n : Nat) :
    s.lacksRoom n = true ↔ s.olen.toNat + n > s.obufCap.toNat := by
  simp [State.lacksRoom, exceeds]

/-- With room the cursor does not wrap, since `OBUF_CAP <= 2^64 - 1` (R33). -/
theorem State.noWrap (s : State) (n : Nat) (h : s.olen.toNat + n ≤ s.obufCap.toNat) : s.olen.toNat + n < 2 ^ 64 :=
  lt_of_le_of_lt h s.obufCap.isLt

theorem State.lacksLength_eq_false (s : State) (n : Nat) :
    s.lacksLength n = false ↔ s.wcnt.toNat + n ≤ s.dlen.toNat := by
  simp [State.lacksLength, exceeds]

theorem State.lacksLength_eq_true (s : State) (n : Nat) :
    s.lacksLength n = true ↔ s.wcnt.toNat + n > s.dlen.toNat := by
  simp [State.lacksLength, exceeds]

theorem State.chunkFull_eq_true (s : State) : s.chunkFull = true ↔ s.wcnt = s.dlen := by
  simp [State.chunkFull]

theorem State.chunkFull_eq_false (s : State) : s.chunkFull = false ↔ s.wcnt ≠ s.dlen := by
  simp [State.chunkFull]

/-! ### The frame of a command -/

@[simp] theorem firstRaised_nil : firstRaised [] = none := rfl

@[simp] theorem firstRaised_cons (fails : Bool) (k : Cause) (rest : List (Bool × Cause)) :
    firstRaised ((fails, k) :: rest) = if fails = true then some k else firstRaised rest := rfl

/-- A faulted block ignores a command (R135). -/
theorem command_faulted {s : State} (h : s.fault = true) (checks : List (Bool × Cause)) (done : State) :
    command s checks done = .next s := by
  simp [command, h]

/-- A failing check raises its fault and does nothing else (R133, R134). -/
theorem command_raises {s : State} (h : s.fault = false) {checks : List (Bool × Cause)} {k : Cause}
    (hk : firstRaised checks = some k) (done : State) : command s checks done = .next (s.raise k) := by
  simp [command, h, hk]

/-- With no failing check the command has its effect. -/
theorem command_done {s : State} (h : s.fault = false) {checks : List (Bool × Cause)}
    (hk : firstRaised checks = none) (done : State) : command s checks done = .next done := by
  simp [command, h, hk]

/-- Everything a command can do: be ignored, raise the first failing check, or have its effect. -/
theorem command_cases {s t : State} {checks : List (Bool × Cause)} {done : State}
    (h : command s checks done = .next t) :
    (s.fault = true ∧ t = s) ∨ (s.fault = false ∧ ∃ k, firstRaised checks = some k ∧ t = s.raise k)
      ∨ (s.fault = false ∧ firstRaised checks = none ∧ t = done) := by
  unfold command at h
  split at h
  · next hf => exact .inl ⟨hf, by injection h with h; exact h.symm⟩
  · next hf =>
    have hf : s.fault = false := by simpa using hf
    split at h
    · next k hk => exact .inr (.inl ⟨hf, k, hk, by injection h with h; exact h.symm⟩)
    · next hk => exact .inr (.inr ⟨hf, hk, by injection h with h; exact h.symm⟩)

/-- A command always answers a next state. -/
theorem command_answers (s : State) (checks : List (Bool × Cause)) (done : State) :
    ∃ t, command s checks done = .next t := by
  unfold command
  split
  · exact ⟨_, rfl⟩
  · split <;> exact ⟨_, rfl⟩

/-! ### exec as checks and effect -/

/-- The checks of a command in the order of its rule (R80 to R86, R63, R64, R72, R73). -/
def checksOf : Instr → State → List (Bool × Cause)
  | .clr, s => [(s.chopen, .proto)]
  | .rawb _, s => [(s.chopen, .proto), (s.lacksRoom 1, .ovf)]
  | .crcinit, s => [(s.chopen, .proto)]
  | .crcb _, s => [(s.chopen, .proto), (!s.crcv, .uninit)]
  | .adlinit, _ => []
  | .adlb _, s => [(!s.adlv, .uninit)]
  | .begch _ _, s => [(s.chopen, .proto), (s.lacksRoom 8, .ovf)]
  | .wrb _, s => [(!s.chopen, .proto), (s.chunkFull, .len), (s.lacksRoom 1, .ovf)]
  | .wrab _, s => [(!s.chopen, .proto), (!s.adlv, .uninit), (s.chunkFull, .len), (s.lacksRoom 1, .ovf)]
  | .wradl, s => [(!s.chopen, .proto), (!s.adlv, .uninit), (s.lacksLength 4, .len), (s.lacksRoom 4, .ovf)]
  | .endch, s => [(!s.chopen, .proto), (!s.chunkFull, .len), (s.lacksRoom 4, .ovf)]

/-- The effect of a command whose checks pass. -/
def effectOf : Instr → State → State
  | .clr, s => { s with olen := 0#64, obuf := [] }
  | .rawb b, s => s.append b
  | .crcinit, s => { s with crc := crcInit, crcv := true }
  | .crcb b, s => { s with crc := crcStep s.crc b }
  | .adlinit, s => { s with s1 := adlerInit.1, s2 := adlerInit.2, adlv := true }
  | .adlb b, s => s.foldAdler b
  | .begch tag len, s =>
    { s.appendSeq (be32 len ++ be32 tag) with
      crc := crcFold crcInit (be32 tag), crcv := true, dlen := len, wcnt := 0#32, chopen := true }
  | .wrb b, s => s.emitCovered [b]
  | .wrab b, s => (s.foldAdler b).emitCovered [b]
  | .wradl, s => s.emitCovered (be32 (combined s.s1 s.s2))
  | .endch, s => { s.appendSeq (be32 (~~~s.crc)) with chopen := false }

theorem exec_eq_command (i : Instr) (s : State) : exec i s = command s (checksOf i s) (effectOf i s) := by
  cases i <;> rfl

/-- Everything a command can do: be ignored by a faulted block, raise, or have its effect. -/
theorem exec_cases {i : Instr} {s t : State} (h : exec i s = .next t) :
    (s.fault = true ∧ t = s) ∨ (s.fault = false ∧ ∃ k, firstRaised (checksOf i s) = some k ∧ t = s.raise k)
      ∨ (s.fault = false ∧ firstRaised (checksOf i s) = none ∧ t = effectOf i s) :=
  command_cases (exec_eq_command i s ▸ h)

/-- A command whose checks pass has its effect. -/
theorem exec_done {i : Instr} {s : State} (h : s.fault = false) (hk : firstRaised (checksOf i s) = none) :
    exec i s = .next (effectOf i s) := by
  rw [exec_eq_command]; exact command_done h hk _

/-- An effect never touches FAULT or CAUSE, the capacity or the model's own fields. -/
theorem effectOf_frame (i : Instr) (s : State) :
    (effectOf i s).fault = s.fault ∧ (effectOf i s).cause = s.cause ∧ (effectOf i s).obufCap = s.obufCap
      ∧ (effectOf i s).port = s.port ∧ (effectOf i s).srData = s.srData ∧ (effectOf i s).rdData = s.rdData
      ∧ (effectOf i s).draws = s.draws := by
  cases i <;> simp [effectOf]

/-! ### Commands, words and host events -/

theorem issue_command {w : CmdWord} {i : Instr} (h : decode w = .command i) (s : State) : issue w s = exec i s := by
  simp [issue, h]

theorem issue_illegal {w : CmdWord} {e : DecodeError} (h : decode w = .illegal e) (s : State) :
    issue w s = illegalWord s := by
  simp [issue, h]

@[simp] theorem execList_nil (s : State) : execList [] s = .next s := rfl

/-- A list of commands runs its first command and then the rest. -/
theorem execList_cons {i : Instr} {rest : List Instr} {s t : State} (h : exec i s = .next t) :
    execList (i :: rest) s = execList rest t := by
  simp [execList, h]

/-- Two lists in a row (R38). -/
theorem execList_append {as bs : List Instr} {s t : State} (h : execList as s = .next t) :
    execList (as ++ bs) s = execList bs t := by
  induction as generalizing s with
  | nil => simp only [execList_nil, Host.Outcome.next.injEq] at h; subst h; rfl
  | cons i as ih =>
    obtain ⟨u, hu⟩ := command_answers s (checksOf i s) (effectOf i s)
    rw [← exec_eq_command] at hu
    rw [execList_cons hu] at h
    rw [List.cons_append, execList_cons hu, ih h]

/-- A list of commands always answers a next state. -/
theorem execList_answers (is : List Instr) (s : State) : ∃ t, execList is s = .next t := by
  induction is generalizing s with
  | nil => exact ⟨s, rfl⟩
  | cons i is ih =>
    obtain ⟨u, hu⟩ := command_answers s (checksOf i s) (effectOf i s)
    rw [← exec_eq_command] at hu
    rw [execList_cons hu]
    exact ih u

/-- A faulted block ignores a whole list (R135). -/
theorem execList_faulted (is : List Instr) {s : State} (hf : s.fault = true) : execList is s = .next s := by
  induction is with
  | nil => rfl
  | cons i is ih =>
    rw [execList_cons (t := s) (by rw [exec_eq_command, command_faulted hf]), ih]

/-- A list that ends without a fault started without one (R135). -/
theorem execList_not_faulted {is : List Instr} {s t : State} (h : execList is s = .next t) (ht : t.fault = false) :
    s.fault = false := by
  cases hs : s.fault with
  | false => rfl
  | true =>
    rw [execList_faulted is hs, Host.Outcome.next.injEq] at h
    rw [← h, hs] at ht
    exact ht

end Sys2Proof.Machine
end

