-- ==== Sys2Proof/Laws/Exec.lean ====
section
/-! SUPPORT. What a command whose checks pass does to the buffer, and which conditions its checks stand for. -/

namespace Sys2Proof.Machine

open Sys2Proof.Safety

/-- No check fails exactly when each of them passes. -/
theorem firstRaised_eq_none (cs : List (Bool × Cause)) : firstRaised cs = none ↔ ∀ c ∈ cs, c.1 = false := by
  induction cs with
  | nil => simp
  | cons c cs ih =>
    obtain ⟨f, k⟩ := c
    cases f <;> simp [ih]

/-- The bytes of the combined Adler value are the halves' bytes, S2 first (R32). -/
theorem be32_combined (s1 s2 : Half) :
    be32 (combined s1 s2)
      = [s2.extractLsb' 8 8, s2.extractLsb' 0 8, s1.extractLsb' 8 8, s1.extractLsb' 0 8] := by
  have hi (k j : Nat) (hk : 16 ≤ k) (hkj : k + j < 32) : (combined s1 s2).getLsbD (k + j) = s2.getLsbD (k + j - 16) := by
    have h0 : s1.getLsbD (k + j) = false := BitVec.getLsbD_of_ge _ _ (by omega)
    simp only [combined, BitVec.getLsbD_or, BitVec.getLsbD_shiftLeft, BitVec.getLsbD_setWidth, h0, Bool.and_false,
      Bool.or_false]
    simp [hkj, show ¬ (k + j < 16) by omega, show k + j - 16 < 32 by omega]
  have lo (k : Nat) (hk : k < 16) : (combined s1 s2).getLsbD k = s1.getLsbD k := by
    simp [combined, hk, show k < 32 by omega]
  simp only [be32, List.cons.injEq, and_true]
  refine ⟨?_, ?_, ?_, ?_⟩ <;> apply BitVec.eq_of_getLsbD_eq <;> intro j hj <;>
    simp only [BitVec.getLsbD_extractLsb', hj, decide_true, Bool.true_and]
  · rw [hi 24 j (by omega) (by omega)]; congr 1; omega
  · rw [hi 16 j (by omega) (by omega)]; congr 1; omega
  · rw [lo _ (by omega)]
  · rw [lo _ (by omega)]

theorem emission_length (i : Instr) (s : State) : (emission i s).length = bytesEmitted i := by
  cases i <;> rfl

/-- A command whose checks pass has room for the bytes it emits (R33). -/
theorem room_of_checks {i : Instr} {s : State} (h : firstRaised (checksOf i s) = none) (hi : 0 < bytesEmitted i) :
    s.olen.toNat + bytesEmitted i ≤ s.obufCap.toNat := by
  rw [firstRaised_eq_none] at h
  cases i <;> simp [checksOf, bytesEmitted] at h hi ⊢ <;>
    simp_all [State.lacksRoom, exceeds]

/-- The buffer and the cursor after a command whose checks pass: its bytes stand at the old cursor (R30 to R33). -/
theorem effectOf_buffer {i : Instr} {s : State} (h : firstRaised (checksOf i s) = none) (hi : i ≠ .clr) :
    (effectOf i s).obuf = Memory.writeSeq s.obuf s.olen.toNat (emission i s)
      ∧ (effectOf i s).olen = s.olen + BitVec.ofNat 64 (bytesEmitted i) := by
  have hr := fun hp => s.noWrap _ (room_of_checks h hp)
  cases i with
  | clr => exact absurd rfl hi
  | begch tag len =>
    simp only [effectOf]; rw [State.appendSeq_eq _ _ (hr (by simp [bytesEmitted]))]; exact ⟨rfl, rfl⟩
  | wradl =>
    simp only [effectOf, State.emitCovered]
    rw [State.appendSeq_eq _ _ (hr (by simp [bytesEmitted])), be32_combined]; exact ⟨rfl, rfl⟩
  | endch =>
    simp only [effectOf]; rw [State.appendSeq_eq _ _ (hr (by simp [bytesEmitted]))]; exact ⟨rfl, rfl⟩
  | rawb b => exact ⟨rfl, rfl⟩
  | wrb b => exact ⟨rfl, rfl⟩
  | wrab b => exact ⟨rfl, rfl⟩
  | crcinit => exact ⟨rfl, by simp [effectOf, bytesEmitted]⟩
  | crcb b => exact ⟨rfl, by simp [effectOf, bytesEmitted]⟩
  | adlinit => exact ⟨rfl, by simp [effectOf, bytesEmitted]⟩
  | adlb b => exact ⟨rfl, by simp [effectOf, bytesEmitted]⟩

/-- The cursor after a command whose checks pass does not wrap (R12, R33). -/
theorem effectOf_olen_toNat {i : Instr} {s : State} (h : firstRaised (checksOf i s) = none) (hi : i ≠ .clr) :
    (effectOf i s).olen.toNat = s.olen.toNat + bytesEmitted i := by
  rw [(effectOf_buffer h hi).2]
  rcases Nat.eq_zero_or_pos (bytesEmitted i) with h0 | hp
  · simp [h0]
  · have := s.noWrap _ (room_of_checks h hp)
    have hb : bytesEmitted i ≤ 8 := by cases i <;> simp [bytesEmitted]
    simp only [BitVec.toNat_add, BitVec.toNat_ofNat]
    omega

/-- The output bytes after a command whose checks pass, on a dense buffer: its bytes come at the end. -/
theorem effectOf_outputBytes {i : Instr} {s : State} (h : firstRaised (checksOf i s) = none) (hi : i ≠ .clr)
    (hd : BufferDense s) :
    BufferDense (effectOf i s) ∧ outputBytes (effectOf i s) = outputBytes s ++ emission i s := by
  have hw := Memory.writeSeq_dense (emission i s) s.obuf s.olen.toNat hd
  rw [emission_length] at hw
  refine ⟨?_, ?_⟩
  · rw [BufferDense, (effectOf_buffer h hi).1, effectOf_olen_toNat h hi]; exact hw.1
  · rw [outputBytes, (effectOf_buffer h hi).1]; exact hw.2

/-- No check of a command fails exactly when no condition of the table of R131 holds. -/
theorem checks_pass_iff (i : Instr) (s : State) :
    firstRaised (checksOf i s) = none ↔ ∀ k, ¬ faultCondition k i s := by
  rw [firstRaised_eq_none]
  constructor
  · intro h k hk
    cases k <;> cases i <;>
      simp_all [checksOf, faultCondition, bytesEmitted, State.lacksRoom, State.lacksLength, State.chunkFull, exceeds] <;>
      omega
  · intro h
    have hp := h .proto
    have hu := h .uninit
    have hl := h .len
    have ho := h .ovf
    clear h
    cases i <;>
      simp_all [checksOf, faultCondition, bytesEmitted, State.lacksRoom, State.lacksLength, State.chunkFull, exceeds]

end Sys2Proof.Machine
end

