-- ==== Sys2Proof/Laws/Framing.lean ====
section
/-! SUPPORT. The state of the framer as a host sequence sees it, outside a chunk and inside one, and what each command does
to it when it does not fault. -/

namespace Sys2Proof.Machine

open Sys2Proof.Safety

theorem crcFold_snoc (c : Word) (p : List Byte) (b : Byte) : crcFold c (p ++ [b]) = crcStep (crcFold c p) b := by
  induction p generalizing c with
  | nil => rfl
  | cons a p ih => exact ih _

/-- On a dense buffer the cursor is the number of output bytes. -/
theorem outputBytes_length {s : State} (h : BufferDense s) : (outputBytes s).length = s.olen.toNat := by
  have := congrArg List.length h
  simpa [outputBytes] using this

/-- Outside a chunk, not faulted: the output so far and the capacity. -/
structure Idle (cap : Offset) (out : List Byte) (s : State) : Prop where
  dense : BufferDense s
  fault : s.fault = false
  closed : s.chopen = false
  out : outputBytes s = out
  cap : s.obufCap = cap

/-- Inside a chunk, not faulted: the output before the chunk, its tag, declared length and payload so far, and the
Adler pair where it is valid. -/
structure Opened (cap : Offset) (before : List Byte) (tag len : Word) (p : List Byte) (pair : Option (Half × Half))
    (s : State) : Prop where
  dense : BufferDense s
  fault : s.fault = false
  opened : s.chopen = true
  out : outputBytes s = before ++ (be32 len ++ be32 tag ++ p)
  cap : s.obufCap = cap
  declared : s.dlen = len
  counted : s.wcnt.toNat = p.length
  crc : s.crc = crcFold crcInit (be32 tag ++ p)
  adler : ∀ q, pair = some q → s.adlv = true ∧ (s.s1, s.s2) = q

/-- A command whose conditions do not hold has its effect, and appends its bytes. -/
theorem exec_completes {i : Instr} {s : State} (hf : s.fault = false) (hd : BufferDense s) (hi : i ≠ .clr)
    (h : ∀ k, ¬ faultCondition k i s) :
    exec i s = .next (effectOf i s) ∧ BufferDense (effectOf i s)
      ∧ outputBytes (effectOf i s) = outputBytes s ++ emission i s := by
  have hk := (checks_pass_iff i s).2 h
  exact ⟨exec_done hf hk, effectOf_outputBytes hk hi hd⟩

/-- `CLR` outside a chunk empties the output (R80). -/
theorem Idle.clr {cap : Offset} {out : List Byte} {s : State} (h : Idle cap out s) :
    ∃ t, exec .clr s = .next t ∧ Idle cap [] t := by
  refine ⟨_, exec_done h.fault ((checks_pass_iff .clr s).2 fun k => ?_), ⟨rfl, h.fault, h.closed, rfl, h.cap⟩⟩
  cases k <;> simp [faultCondition, bytesEmitted, h.closed]

/-- `RAWB` outside a chunk, with room (R81). -/
theorem Idle.rawb {cap : Offset} {out : List Byte} {s : State} (h : Idle cap out s) (b : Byte)
    (hroom : out.length + 1 ≤ cap.toNat) : ∃ t, exec (.rawb b) s = .next t ∧ Idle cap (out ++ [b]) t := by
  have hl := outputBytes_length h.dense
  rw [h.out] at hl
  obtain ⟨hx, hd, ho⟩ := exec_completes (i := .rawb b) h.fault h.dense (by simp) fun k => by
    cases k <;> simp [faultCondition, bytesEmitted, h.closed, h.cap]
    omega
  exact ⟨_, hx, ⟨hd, h.fault, h.closed, by rw [ho, h.out]; rfl, h.cap⟩⟩

/-- `BEGCH` outside a chunk, with room, opens one (R83). -/
theorem Idle.begch {cap : Offset} {out : List Byte} {s : State} (h : Idle cap out s) (tag len : Word)
    (hroom : out.length + 8 ≤ cap.toNat) :
    ∃ t, exec (.begch tag len) s = .next t ∧ Opened cap out tag len [] none t := by
  have hl := outputBytes_length h.dense
  rw [h.out] at hl
  obtain ⟨hx, hd, ho⟩ := exec_completes (i := .begch tag len) h.fault h.dense (by simp) fun k => by
    cases k <;> simp [faultCondition, bytesEmitted, h.closed, h.cap]
    omega
  refine ⟨_, hx, ⟨hd, ?_, rfl, by rw [ho, h.out]; rfl, ?_, rfl, rfl, rfl, by simp⟩⟩
  · rw [(effectOf_frame _ s).1, h.fault]
  · rw [(effectOf_frame _ s).2.2.1, h.cap]

section Opened

variable {cap : Offset} {before p : List Byte} {tag len : Word} {pair : Option (Half × Half)} {s : State}

theorem Opened.room (h : Opened cap before tag len p pair s) {n : Nat}
    (hroom : before.length + 8 + p.length + n ≤ cap.toNat) : s.olen.toNat + n ≤ s.obufCap.toNat := by
  have hl := outputBytes_length h.dense
  rw [h.out] at hl
  simp only [be32, List.length_append, List.length_cons, List.length_nil] at hl
  rw [h.cap]
  omega

/-- `ADLINIT` inside a chunk (R72). -/
theorem Opened.adlinit (h : Opened cap before tag len p pair s) :
    ∃ t, exec .adlinit s = .next t ∧ Opened cap before tag len p (some adlerInit) t := by
  refine ⟨_, exec_done h.fault rfl, ⟨h.dense, h.fault, h.opened, h.out, h.cap, h.declared, h.counted, h.crc, ?_⟩⟩
  rintro q ⟨⟩
  exact ⟨rfl, rfl⟩

theorem Opened.wcnt_ne (h : Opened cap before tag len p pair s) (hlen : p.length < len.toNat) : s.wcnt ≠ s.dlen := by
  intro he
  have := h.counted
  rw [he, h.declared] at this
  omega

theorem Opened.wcnt_add (h : Opened cap before tag len p pair s) {n : Nat} (hlen : p.length + n ≤ len.toNat) :
    (s.wcnt + BitVec.ofNat 32 n).toNat = p.length + n := by
  have hc := h.counted
  have hlt := len.isLt
  simp only [BitVec.toNat_add, BitVec.toNat_ofNat]
  omega

/-- `WRB` below the declared length, with room (R82). -/
theorem Opened.wrb (h : Opened cap before tag len p pair s) (b : Byte) (hlen : p.length + 1 ≤ len.toNat)
    (hroom : before.length + 8 + p.length + 1 ≤ cap.toNat) :
    ∃ t, exec (.wrb b) s = .next t ∧ Opened cap before tag len (p ++ [b]) pair t := by
  have hr := h.room hroom
  obtain ⟨hx, hd, ho⟩ := exec_completes (i := .wrb b) h.fault h.dense (by simp) fun k => by
    cases k <;> simp [faultCondition, bytesEmitted, h.opened, h.wcnt_ne hlen]
    omega
  refine ⟨_, hx, ⟨hd, h.fault, h.opened, by rw [ho, h.out]; simp [emission], h.cap, h.declared, ?_, ?_, h.adler⟩⟩
  · simpa [effectOf] using h.wcnt_add hlen
  · rw [← List.append_assoc, crcFold_snoc, ← h.crc]; rfl

/-- `WRAB` below the declared length, with room and a valid pair (R84). -/
theorem Opened.wrab {q : Half × Half} (h : Opened cap before tag len p (some q) s) (b : Byte)
    (hlen : p.length + 1 ≤ len.toNat) (hroom : before.length + 8 + p.length + 1 ≤ cap.toNat) :
    ∃ t, exec (.wrab b) s = .next t ∧ Opened cap before tag len (p ++ [b]) (some (adlerStep q b)) t := by
  have hr := h.room hroom
  obtain ⟨hv, hq⟩ := h.adler q rfl
  obtain ⟨hx, hd, ho⟩ := exec_completes (i := .wrab b) h.fault h.dense (by simp) fun k => by
    cases k <;> simp [faultCondition, bytesEmitted, h.opened, hv, h.wcnt_ne hlen]
    omega
  refine ⟨_, hx, ⟨hd, h.fault, h.opened, by rw [ho, h.out]; simp [emission], h.cap, h.declared, ?_, ?_, ?_⟩⟩
  · simpa [effectOf] using h.wcnt_add hlen
  · rw [← List.append_assoc, crcFold_snoc, ← h.crc]; rfl
  · rintro r ⟨⟩
    exact ⟨hv, by rw [← hq]; rfl⟩

/-- `WRADL` with four bytes of declared length and room, and a valid pair (R85). -/
theorem Opened.wradl {q : Half × Half} (h : Opened cap before tag len p (some q) s)
    (hlen : p.length + 4 ≤ len.toNat) (hroom : before.length + 8 + p.length + 4 ≤ cap.toNat) :
    ∃ t, exec .wradl s = .next t ∧ Opened cap before tag len (p ++ be32 (combined q.1 q.2)) (some q) t := by
  have hr := h.room hroom
  obtain ⟨hv, hq⟩ := h.adler q rfl
  have hl : s.wcnt.toNat + 4 ≤ s.dlen.toNat := by rw [h.counted, h.declared]; exact hlen
  obtain ⟨hx, hd, ho⟩ := exec_completes (i := .wradl) h.fault h.dense (by simp) fun k => by
    cases k <;> simp [faultCondition, bytesEmitted, h.opened, hv, hl]
    omega
  have he : emission .wradl s = be32 (combined q.1 q.2) := by rw [be32_combined, ← hq]; rfl
  refine ⟨_, hx, ⟨hd, ?_, ?_, by rw [ho, h.out, he]; simp, ?_, ?_, ?_, ?_, ?_⟩⟩
  · rw [(effectOf_frame _ s).1, h.fault]
  · simpa [effectOf] using h.opened
  · rw [(effectOf_frame _ s).2.2.1, h.cap]
  · simpa [effectOf] using h.declared
  · have := h.wcnt_add hlen
    simpa [effectOf, be32] using this
  · subst hq
    have h4 (x : List Byte) (a b c d : Byte) : x ++ [a, b, c, d] = x ++ [a] ++ [b] ++ [c] ++ [d] := by simp
    simp only [effectOf, State.emitCovered_crc]
    rw [h.crc, ← List.append_assoc]
    generalize be32 tag ++ p = x
    rw [be32, h4]
    simp only [crcFold_snoc, crcFold]
  · rintro r ⟨⟩
    exact ⟨by simpa [effectOf] using hv, by simpa [effectOf] using hq⟩

/-- `ENDCH` at the declared length, with room, closes the chunk (R86). -/
theorem Opened.endch (h : Opened cap before tag len p pair s) (hlen : p.length = len.toNat)
    (hroom : before.length + 8 + p.length + 4 ≤ cap.toNat) :
    ∃ t, exec .endch s = .next t
      ∧ Idle cap (before ++ (be32 len ++ be32 tag ++ p ++ be32 (crcOf (be32 tag ++ p)))) t := by
  have hr := h.room hroom
  have hw : s.wcnt = s.dlen := BitVec.eq_of_toNat_eq (by rw [h.counted, h.declared, hlen])
  obtain ⟨hx, hd, ho⟩ := exec_completes (i := .endch) h.fault h.dense (by simp) fun k => by
    cases k <;> simp [faultCondition, bytesEmitted, h.opened, hw]
    omega
  refine ⟨_, hx, ⟨hd, ?_, rfl, ?_, ?_⟩⟩
  · rw [(effectOf_frame _ s).1, h.fault]
  · have he : emission .endch s = be32 (crcOf (be32 tag ++ p)) := by rw [crcOf, ← h.crc]; rfl
    rw [ho, h.out, he]
    simp only [List.append_assoc]
  · rw [(effectOf_frame _ s).2.2.1, h.cap]

end Opened

end Sys2Proof.Machine
end

