-- ==== Sys2Proof/Laws/PerInstr.lean ====
section
/-! SUPPORT. Statements about every command, one lemma per constructor: the command's fields are legal and its word is
that of its row of the opcode map (30_encoding.md R47, R49). -/

namespace Sys2Proof.Laws.RowMatch

/-- The fields of the command pass the checks of R47, and the row of R49 with its mnemonic covers its word. -/
def Statement (i : Instr) : Prop :=
  i.fields.wellFormed = true ∧ ∃ r ∈ opcodeMap, r.mnemonic = i.mnemonic ∧ r.covers (encode i)

/-- A format-B word passes the checks when its opcode is one of the five. -/
theorem wellFormed_fieldsB {op : Byte} (b : Byte) (h : op ∈ formatBOpcodes) : (fieldsB op b).wellFormed = true := by
  have hf : formatOfOpcode op = some .b := by
    revert op
    decide
  simp [RawCommand.wellFormed, fieldsB, hf]

/-- The mask of a format-B row keeps all of the word but the byte. -/
theorem covers_fieldsB (op b : Byte) :
    joinWord (fieldsB op b) &&& 0xFFFFFFFFFFFFFFFF00#72 = joinWord ⟨op, 0#32, 0#32⟩ := by
  rw [show 0xFFFFFFFFFFFFFFFF00#72 = joinWord ⟨BitVec.allOnes 8, 0xFFFFFFFF#32, 0xFFFFFF00#32⟩ from by decide, joinWord_and]
  have hb : ∀ b : Byte, BitVec.setWidth 32 b &&& 0xFFFFFF00#32 = 0#32 := by decide
  simp only [fieldsB, hb, BitVec.and_allOnes, BitVec.zero_and]

/-- The mask of the format-TL row keeps the opcode. -/
theorem covers_fieldsTL (op : Byte) (a b : Word) :
    joinWord ⟨op, a, b⟩ &&& 0xFF0000000000000000#72 = joinWord ⟨op, 0#32, 0#32⟩ := by
  rw [show 0xFF0000000000000000#72 = joinWord ⟨BitVec.allOnes 8, 0#32, 0#32⟩ from by decide, joinWord_and]
  simp only [BitVec.and_allOnes, BitVec.and_zero]

theorem clr : Statement .clr := by
  unfold Statement
  decide

theorem rawb (byte : Byte) : Statement (.rawb byte) :=
  ⟨wellFormed_fieldsB byte (by decide), ⟨"RAWB", 0xFFFFFFFFFFFFFFFF00#72, 0x020000000000000000#72⟩, by decide, rfl,
    (covers_fieldsB _ byte).trans (by decide)⟩

theorem crcinit : Statement .crcinit := by
  unfold Statement
  decide

theorem crcb (byte : Byte) : Statement (.crcb byte) :=
  ⟨wellFormed_fieldsB byte (by decide), ⟨"CRCB", 0xFFFFFFFFFFFFFFFF00#72, 0x110000000000000000#72⟩, by decide, rfl,
    (covers_fieldsB _ byte).trans (by decide)⟩

theorem adlinit : Statement .adlinit := by
  unfold Statement
  decide

theorem adlb (byte : Byte) : Statement (.adlb byte) :=
  ⟨wellFormed_fieldsB byte (by decide), ⟨"ADLB", 0xFFFFFFFFFFFFFFFF00#72, 0x210000000000000000#72⟩, by decide, rfl,
    (covers_fieldsB _ byte).trans (by decide)⟩

theorem begch (tag len : Word) : Statement (.begch tag len) :=
  ⟨rfl, ⟨"BEGCH", 0xFF0000000000000000#72, 0x300000000000000000#72⟩, by decide, rfl, (covers_fieldsTL _ tag len).trans (by decide)⟩

theorem wrb (byte : Byte) : Statement (.wrb byte) :=
  ⟨wellFormed_fieldsB byte (by decide), ⟨"WRB", 0xFFFFFFFFFFFFFFFF00#72, 0x310000000000000000#72⟩, by decide, rfl,
    (covers_fieldsB _ byte).trans (by decide)⟩

theorem wrab (byte : Byte) : Statement (.wrab byte) :=
  ⟨wellFormed_fieldsB byte (by decide), ⟨"WRAB", 0xFFFFFFFFFFFFFFFF00#72, 0x320000000000000000#72⟩, by decide, rfl,
    (covers_fieldsB _ byte).trans (by decide)⟩

theorem wradl : Statement .wradl := by
  unfold Statement
  decide

theorem endch : Statement .endch := by
  unfold Statement
  decide

end Sys2Proof.Laws.RowMatch
end

