-- ==== Sys2Proof/Laws/Step.lean ====
section
/-! SUPPORT. Everything one step can do. -/

namespace Sys2Proof.Machine

theorem step_idle {s : State} (h : s.port = []) : step s = .next s := by
  simp [step, stepOnce, h]

/-- A step takes the oldest waiting host event, on the state with that event off the port. -/
theorem step_event {s : State} {e : HostEvent} {rest : List HostEvent} (h : s.port = e :: rest) :
    step s = takeHostEvent e { s with port := rest } := by
  simp [step, stepOnce, h, State.takeEvent]

/-- A status read changes nothing but the two fields of its own (R15). -/
theorem statusRead_cases (n : BitVec 3) (s : State) :
    ∃ v d, statusRead n s = .next { s with srData := some v, draws := d } := by
  unfold statusRead
  split
  · exact ⟨_, s.draws, rfl⟩
  · exact ⟨_, _, rfl⟩

/-- Everything a host event can do, when it answers a next state. -/
inductive EventEffect (s : State) : HostEvent → State → Prop where
  /-- a command word runs its command. -/
  | ran {w : CmdWord} {i : Instr} {t : State} (hd : decode w = .command i) (hx : exec i s = .next t) :
    EventEffect s (.cmd w) t
  /-- an illegal word is ignored while FAULT = 1. -/
  | ignored {w : CmdWord} {e : DecodeError} (hd : decode w = .illegal e) (hf : s.fault = true) : EventEffect s (.cmd w) s
  /-- an illegal word raises E_ILLEGAL. -/
  | raised {w : CmdWord} {e : DecodeError} (hd : decode w = .illegal e) (hf : s.fault = false) :
    EventEffect s (.cmd w) (s.raise .illegal)
  /-- the reset input. -/
  | reset : EventEffect s .rst s.applyReset
  /-- a status read. -/
  | status (n : BitVec 3) (v : Word) (d : Nat) : EventEffect s (.statusRead n) { s with srData := some v, draws := d }
  /-- a buffer read. -/
  | buffer (a : Offset) (b : Byte) (ha : a.toNat < s.olen.toNat) : EventEffect s (.bufRead a) { s with rdData := some b }

theorem takeHostEvent_cases {e : HostEvent} {s t : State} (h : takeHostEvent e s = .next t) : EventEffect s e t := by
  cases e with
  | cmd w =>
    simp only [takeHostEvent, issue] at h
    split at h
    · next i hd => exact .ran hd h
    · next e hd =>
      rcases command_cases h with ⟨hf, rfl⟩ | ⟨hf, k, hk, rfl⟩ | ⟨-, hk, -⟩
      · exact .ignored hd hf
      · obtain rfl : Cause.illegal = k := by simpa using hk
        exact .raised hd hf
      · simp at hk
  | rst => injection h with h; subst h; exact .reset
  | statusRead n =>
    obtain ⟨v, d, hv⟩ := statusRead_cases n s
    simp only [takeHostEvent, hv] at h
    injection h with h; subst h; exact .status n v d
  | bufRead a =>
    simp only [takeHostEvent, bufferRead] at h
    split at h
    · next ha =>
      split at h
      · injection h with h; subst h; exact .buffer a _ ha
      · cases h
    · cases h

/-- Everything a step can do, when it answers a next state. -/
theorem step_cases {s t : State} (h : step s = .next t) :
    (s.port = [] ∧ t = s) ∨ ∃ e rest, s.port = e :: rest ∧ EventEffect { s with port := rest } e t := by
  cases hp : s.port with
  | nil => rw [step_idle hp] at h; injection h with h; exact .inl ⟨rfl, h.symm⟩
  | cons e rest => rw [step_event hp] at h; exact .inr ⟨e, rest, rfl, takeHostEvent_cases h⟩

/-- A run of one more step, for any machine. -/
theorem run_next (M : Host.Core) (k : Nat) {s t : M.State} (h : M.step s = .next t) : M.run (k + 1) s = M.run k t := by
  rw [Host.Core.run, h]

/-- A run of one more step of this machine. -/
theorem core_run_next (k : Nat) {s t : State} (h : step s = .next t) : core.run (k + 1) s = core.run k t :=
  run_next core k h

end Sys2Proof.Machine
end

