-- ==== Sys2Proof/Tests/Slice0.lean ====
section
/-! SUPPORT. Small checks of the model against spec/95_test_vectors.md, and for every obligation with hypotheses states that
meet them. The expected values are the spec's. -/

namespace Sys2Proof.Tests

open Sys2Proof.Machine Sys2Proof.Safety

/-! ### Helpers -/

/-- The next state of an outcome, if it is one. -/
def nextState : Host.Outcome State Fault Refusal → Option State
  | .next t => some t
  | .fault _ => none
  | .refused _ => none

/-- One command on a state; the state itself where it has no next state. -/
def after (i : Instr) (s : State) : State := (nextState (exec i s)).getD s

/-- One step of a state with one host event waiting. -/
def afterEvent (e : HostEvent) (s : State) : State := (nextState (step { s with port := [e] })).getD s

/-- A fresh block of a capacity. -/
def idle (cap : Offset) : State := resetWithCapacity cap

/-- The state of a block just after `BEGCH "IEND", len` (95_test_vectors.md 2.3). -/
def opened (cap : Offset) (len : Word) : State :=
  { idle cap with
    chopen := true, crcv := true, crc := 0x51BD9F7D#32, dlen := len, olen := 8#64
    obuf := Memory.writeSeq [] 0 (be32 len ++ be32 tagEnd) }

/-- The same with the Adler pair valid: the pair of program P3 at its end. -/
def openedAdler (cap : Offset) (len : Word) : State :=
  { opened cap len with adlv := true, s1 := 0x002B#16, s2 := 0x002C#16 }

/-- A block that has faulted with `E_LEN` in an open chunk, after program F1: its buffer holds eight bytes. -/
def faulted : State := { opened 64#64 0#32 with fault := true, cause := 4#4 }

/-- The 1-by-1 Grayscale image of program P3. -/
def onePixel : Image := ⟨1, 1, .grayscale, [[0x2A#32]], []⟩

/-- The 2-by-2 RGBA image of the document's scenario (95_test_vectors.md 1.1). -/
def fourPixels : Image :=
  ⟨2, 2, .rgba, [[0xFF0000FF#32, 0x00FF00FF#32], [0x0000FFFF#32, 0xFFFFFFFF#32]], []⟩

/-! ### Well-formedness and decoding (R47 to R50) -/

theorem test_legal_fields :
    RawCommand.wellFormed ⟨0x34#8, 0#32, 0#32⟩ = true ∧ RawCommand.wellFormed ⟨0x31#8, 0#32, 0xFF#32⟩ = true
      ∧ RawCommand.wellFormed ⟨0x30#8, 0xFFFFFFFF#32, 0xFFFFFFFF#32⟩ = true := by decide

theorem test_unassigned_opcode_refused :
    RawCommand.wellFormed ⟨0x00#8, 0#32, 0#32⟩ = false ∧ RawCommand.wellFormed ⟨0x35#8, 0#32, 0#32⟩ = false := by decide

theorem test_formatN_with_a_refused : RawCommand.wellFormed ⟨0x20#8, 1#32, 0#32⟩ = false := by decide

theorem test_formatN_with_b_refused : RawCommand.wellFormed ⟨0x01#8, 0#32, 1#32⟩ = false := by decide

theorem test_formatB_with_a_refused : RawCommand.wellFormed ⟨0x31#8, 1#32, 0#32⟩ = false := by decide

theorem test_formatB_with_high_b_refused : RawCommand.wellFormed ⟨0x31#8, 0#32, 0x100#32⟩ = false := by decide

/-- OP in bits 71:64, A in 63:32, B in 31:0, bit by bit (R46, R49). -/
theorem test_decode_buffer :
    decode (0b00000001#8 ++ 0#32 ++ 0#32) = .command .clr
      ∧ decode (0b00000010#8 ++ 0#32 ++ 0b10001001#32) = .command (.rawb 0x89#8) := by decide

theorem test_decode_crc :
    decode (0b00010000#8 ++ 0#32 ++ 0#32) = .command .crcinit
      ∧ decode (0b00010001#8 ++ 0#32 ++ 0b00110001#32) = .command (.crcb 0x31#8) := by decide

theorem test_decode_adler :
    decode (0b00100000#8 ++ 0#32 ++ 0#32) = .command .adlinit
      ∧ decode (0b00100001#8 ++ 0#32 ++ 0b01100001#32) = .command (.adlb 0x61#8) := by decide

theorem test_decode_framer :
    decode (0b00110000#8 ++ 0x01020304#32 ++ 0xA0B0C0D0#32) = .command (.begch 0x01020304#32 0xA0B0C0D0#32)
      ∧ decode (0b00110001#8 ++ 0#32 ++ 0b11111111#32) = .command (.wrb 0xFF#8)
      ∧ decode (0b00110010#8 ++ 0#32 ++ 0b00101010#32) = .command (.wrab 0x2A#8)
      ∧ decode (0b00110011#8 ++ 0#32 ++ 0#32) = .command .wradl
      ∧ decode (0b00110100#8 ++ 0#32 ++ 0#32) = .command .endch := by decide

/-- The illegal words of 95_test_vectors.md 2.4. -/
theorem test_illegal_words :
    decode 0x000000000000000000#72 = .illegal (.unassignedOpcode 0x00#8)
      ∧ decode 0xFFFFFFFFFFFFFFFFFF#72 = .illegal (.unassignedOpcode 0xFF#8)
      ∧ decode 0x030000000000000000#72 = .illegal (.unassignedOpcode 0x03#8)
      ∧ decode 0x010000000000000001#72 = .illegal (.nonzeroOperand 0x01#8)
      ∧ decode 0x348000000000000000#72 = .illegal (.nonzeroOperand 0x34#8)
      ∧ decode 0x3300000000000000FF#72 = .illegal (.nonzeroOperand 0x33#8)
      ∧ decode 0x310000000000000100#72 = .illegal (.nonzeroOperand 0x31#8)
      ∧ decode 0x020000000080000000#72 = .illegal (.nonzeroOperand 0x02#8)
      ∧ decode 0x11FFFFFFFF00000031#72 = .illegal (.nonzeroOperand 0x11#8) := by decide

theorem test_table_word :
    decodeTableWord 72 0x30FFFFFFFFFFFFFFFF = some (.begch 0xFFFFFFFF#32 0xFFFFFFFF#32)
      ∧ decodeTableWord 72 0x350000000000000000 = none := by decide

/-- 95_test_vectors.md 2.3: the first command after reset is the word placed. -/
theorem test_fetch_word_runs :
    (nextState (step (State.reset.withFetchWord 72 0x020000000000000089))).map (fun t => (outputBytes t, t.olen, t.port))
      = some ([0x89#8], 1#64, []) := by decide

/-- R52: a line with a comment, a quoted semicolon (the model's choice, log entry 17), and a line that names no command. -/
theorem test_assembler :
    assemble ['W', 'R', 'A', 'D', 'L', ' ', ';', ' ', 'x'] = some .wradl
      ∧ assemble ['W', 'R', 'B', ' ', quoteChar, ';', quoteChar] = some (.wrb 0x3B#8) ∧ assemble ['N', 'O', 'P'] = none := by decide

/-! ### The pure functions (95_test_vectors.md 2.1, 2.2) -/

theorem test_tbl_spots :
    tbl 0#8 = 0#32 ∧ tbl 1#8 = 0x77073096#32 ∧ tbl 128#8 = 0xEDB88320#32 ∧ tbl 255#8 = 0x2D02EF8D#32
      ∧ tbl 0x8D#8 = 0x9309FF9D#32 := by decide

theorem test_crc_steps :
    crcStep 0#32 0x01#8 = 0x77073096#32 ∧ crcStep 0xFFFFFFFF#32 0x00#8 = 0x2DFD1072#32
      ∧ crcStep 0x12345678#32 0x9A#8 = 0x4E16B702#32 := by decide

theorem test_crc_of_digits :
    crcOf [0x31#8, 0x32#8, 0x33#8, 0x34#8, 0x35#8, 0x36#8, 0x37#8, 0x38#8, 0x39#8] = 0xCBF43926#32 := by decide +kernel

theorem test_crc_of_tags :
    crcFold crcInit (be32 tagEnd) = 0x51BD9F7D#32 ∧ crcFold crcInit (be32 tagHdr) = 0x575E51F5#32
      ∧ crcFold crcInit (be32 tagDat) = 0xCA50F9E1#32 ∧ crcFold crcInit (be32 tagPal) = 0xB45776AA#32
      ∧ crcFold crcInit (be32 tagTrn) = 0xC9468F33#32 := by decide +kernel

theorem test_adler_steps :
    adlerStep (65520#16, 65520#16) 0x00#8 = (65520#16, 65519#16)
      ∧ adlerStep (65520#16, 65520#16) 0xFF#8 = (254#16, 253#16)
      ∧ adlerStep (5611#16, 64537#16) 0xFF#8 = (5866#16, 4882#16) := by decide

theorem test_adler_of_abc : adlerOf [0x61#8, 0x62#8, 0x63#8] = 0x024D0127#32 := by decide

/-! ### The commands, one step each (95_test_vectors.md 2.3, 2.5) -/

theorem test_clr_empties :
    (after .clr { idle 64#64 with olen := 12#64, obuf := [(0, 1#8)], crcv := true }).obuf = []
      ∧ (after .clr { idle 64#64 with olen := 12#64, obuf := [(0, 1#8)], crcv := true }).crcv = true := by decide

theorem test_clr_in_chunk : (after .clr (opened 64#64 0#32)).status = 0x20B#32 := by decide

theorem test_rawb_appends : outputBytes (after (.rawb 0x89#8) (idle 64#64)) = [0x89#8] := by decide

theorem test_rawb_in_chunk : (after (.rawb 0#8) (opened 64#64 0#32)).status = 0x20B#32 := by decide

theorem test_crcinit_sets : (after .crcinit (idle 64#64)).statusValue 1#3 = some 0xFFFFFFFF#32 := by decide

theorem test_crcinit_in_chunk : (after .crcinit (opened 64#64 0#32)).status = 0x20B#32 := by decide

theorem test_crcb_uninit : (after (.crcb 0x31#8) (idle 64#64)).status = 0x308#32 := by decide

theorem test_crcb_zero_is_no_nop :
    (after (.crcb 0#8) { idle 64#64 with crcv := true, crc := 0xFFFFFFFF#32 }).crc = 0x2DFD1072#32 := by decide

theorem test_adlinit_sets : (after .adlinit (idle 64#64)).statusValue 2#3 = some 1#32 := by decide

theorem test_adlinit_in_chunk : (after .adlinit (opened 64#64 0#32)).status = 0x007#32 := by decide

theorem test_adlb_uninit : (after (.adlb 0x31#8) (idle 64#64)).status = 0x308#32 := by decide

theorem test_adlb_folds :
    (after (.adlb 0x61#8) { idle 64#64 with adlv := true, s1 := 1#16 }).statusValue 2#3 = some 0x00620062#32 := by decide

theorem test_begch_length_first :
    outputBytes (after (.begch 0x01020304#32 0xA0B0C0D0#32) (idle 64#64))
      = [0xA0#8, 0xB0#8, 0xC0#8, 0xD0#8, 0x01#8, 0x02#8, 0x03#8, 0x04#8] := by decide

theorem test_begch_folds_the_tag :
    (after (.begch tagHdr 13#32) (idle 64#64)).crc = 0x575E51F5#32
      ∧ (after (.begch tagHdr 13#32) (idle 64#64)).status = 0x003#32 := by decide +kernel

theorem test_wrb_folds :
    (after (.wrb 0#8) { opened 64#64 13#32 with crc := 0x575E51F5#32 }).crc = 0xCD8058C2#32
      ∧ (after (.wrb 0#8) { opened 64#64 13#32 with crc := 0x575E51F5#32 }).wcnt = 1#32 := by decide

theorem test_wrb_full : (after (.wrb 0#8) (opened 64#64 0#32)).status = 0x40B#32 := by decide

theorem test_wrab_folds_both :
    (after (.wrab 0x2A#8) { openedAdler 64#64 13#32 with s1 := 1#16, s2 := 1#16, crc := 0x57D1BEDD#32, wcnt := 8#32 }).crc
        = 0x238EB601#32
      ∧ (after (.wrab 0x2A#8) { openedAdler 64#64 13#32 with s1 := 1#16, s2 := 1#16, wcnt := 8#32 }).statusValue 2#3
        = some 0x002C002B#32 := by decide

/-- E_PROTO before E_UNINIT, and E_UNINIT before E_LEN (R133). -/
theorem test_wrab_priority :
    (after (.wrab 0#8) (idle 64#64)).status = 0x208#32
      ∧ (after (.wrab 0#8) (opened 64#64 0#32)).status = 0x30B#32 := by decide

theorem test_wradl_bytes :
    (outputBytes (after .wradl (openedAdler 64#64 4#32))).drop 8 = [0x00#8, 0x2C#8, 0x00#8, 0x2B#8] := by decide

theorem test_wradl_too_long : (after .wradl (openedAdler 64#64 3#32)).status = 0x40F#32 := by decide

theorem test_endch_complement :
    (outputBytes (after .endch (opened 64#64 0#32))).drop 8 = [0xAE#8, 0x42#8, 0x60#8, 0x82#8]
      ∧ (after .endch (opened 64#64 0#32)).status = 0x002#32
      ∧ (after .endch (opened 64#64 0#32)).crc = 0x51BD9F7D#32 := by decide

theorem test_endch_short : (after .endch (opened 64#64 1#32)).status = 0x40B#32 := by decide

/-- E_LEN before E_OVF where both hold (R133); E_OVF appends none of the bytes (R33). -/
theorem test_overflow :
    (after (.wrb 0#8) (opened 8#64 0#32)).status = 0x40B#32 ∧ (after (.wrb 0#8) (opened 8#64 1#32)).status = 0x50B#32
      ∧ (after .endch (opened 11#64 0#32)).obuf = (opened 11#64 0#32).obuf := by decide

/-! ### Steps -/

theorem test_reset_event_clears_fault :
    (afterEvent .rst faulted).status = 0#32 ∧ (afterEvent .rst faulted).obuf = []
      ∧ (afterEvent .rst faulted).obufCap = 64#64 := by decide

theorem test_faulted_ignores_commands :
    (afterEvent (.cmd 0x010000000000000000#72) faulted) = faulted
      ∧ (afterEvent (.cmd 0#72) faulted) = faulted := by decide

theorem test_status_read_when_faulted : (afterEvent (.statusRead 0#3) faulted).srData = some 0x40B#32 := by decide

theorem test_buffer_read :
    (afterEvent (.bufRead 4#64) faulted).rdData = some 0x49#8
      ∧ nextState (step { faulted with port := [.bufRead 8#64] }) = none := by decide

/-! ### The host sequences (95_test_vectors.md 1.2, 1.3, programs P3 and P4) -/

theorem test_idat_lengths :
    idatLen 1 1 1 = 13 ∧ idatLen 2 2 4 = 34 ∧ idatLen 2 1 3 = 18 ∧ idatLen 16383 1 4 = 65544 := by decide

theorem test_file_of_one_pixel :
    onePixel.fileLength = 70 ∧ onePixel.commandCount = 39 ∧ (fileSeq (0x78#8, 0x01#8) onePixel).length = 39
      ∧ (fileBytes (0x78#8, 0x01#8) onePixel).drop 41
        = [0x78#8, 0x01#8, 0x01#8, 0x02#8, 0x00#8, 0xFD#8, 0xFF#8, 0x00#8, 0x2A#8, 0x00#8, 0x2C#8, 0x00#8, 0x2B#8,
            0x1C#8, 0x1C#8, 0x98#8, 0x4B#8]
          ++ [0x00#8, 0x00#8, 0x00#8, 0x00#8, 0x49#8, 0x45#8, 0x4E#8, 0x44#8, 0xAE#8, 0x42#8, 0x60#8, 0x82#8] := by decide +kernel

theorem test_scanlines_of_four_pixels :
    scanlines .rgba fourPixels.rows
        = [0x00#8, 0xFF#8, 0x00#8, 0x00#8, 0xFF#8, 0xFF#8, 0x00#8, 0xFF#8, 0x00#8]
          ++ [0x00#8, 0xFF#8, 0xFF#8, 0x00#8, 0x00#8, 0xFF#8, 0xFF#8, 0xFF#8, 0xFF#8]
      ∧ adlerOf (scanlines .rgba fourPixels.rows) = 0x4FC209F7#32 := by decide

theorem test_palette_padded :
    (paletteBytes [1#32, 2#32, 3#32]).length = 48 ∧ (alphaBytes [1#32, 2#32, 3#32]).length = 16 := by decide

theorem test_row_too_long_refused :
    containerHdrOk Config.containerHdrDefault = true
      ∧ Image.mayStart ⟨65535, 1, .grayscale, [], []⟩ = false ∧ Image.mayStart onePixel = true := by decide

/-! ### States that meet the hypotheses of the obligations -/

/-- A fresh block of any of these capacities meets the invariants. -/
theorem witness_inv_idle : Inv (idle 70#64) :=
  ⟨by unfold AdlerInRange; decide, by unfold OpenChunkCounted; decide, by unfold WithinCapacity; decide,
    by unfold CauseMatchesFault; decide, fun h => absurd h (by decide), by unfold BufferDense; decide,
    by unfold CapacityLegal; decide⟩

/-- So does a block in an open chunk whose declared length is met, with the Adler pair valid. -/
theorem witness_inv_opened : Inv (openedAdler 64#64 0#32) :=
  ⟨by unfold AdlerInRange; decide, by unfold OpenChunkCounted; decide, by unfold WithinCapacity; decide,
    by unfold CauseMatchesFault; decide,
    fun _ => ⟨[], tagEnd, [], by decide, by decide, by decide +kernel⟩, by unfold BufferDense; decide,
    by unfold CapacityLegal; decide⟩

/-- And a faulted block. -/
theorem witness_inv_faulted : Inv faulted :=
  ⟨by unfold AdlerInRange; decide, by unfold OpenChunkCounted; decide, by unfold WithinCapacity; decide,
    by unfold CauseMatchesFault; decide,
    fun _ => ⟨[], tagEnd, [], by decide, by decide, by decide +kernel⟩, by unfold BufferDense; decide,
    by unfold CapacityLegal; decide⟩

/-- DecodedWordIsItsEncoding, StepRunsTheDecodedCommand, StepOfAnIllegalWordRaisesEIllegal, FirstFaultConditionIsReported. -/
theorem witness_decoding :
    decode 0x3100000000000000FF#72 = .command (.wrb 0xFF#8)
      ∧ { idle 64#64 with port := [.cmd 0x3100000000000000FF#72] }.port = .cmd 0x3100000000000000FF#72 :: []
      ∧ decode 0x310000000000000100#72 = .illegal (.nonzeroOperand 0x31#8) ∧ (idle 64#64).fault = false := by decide

/-- OpcodeMapDecidesTheCommand: a row of each format, at its first and last word and beside it. -/
theorem witness_rows :
    OpcodeRow.mk "WRB" 0xFFFFFFFFFFFFFFFF00#72 0x310000000000000000#72 ∈ opcodeMap
      ∧ (OpcodeRow.mk "WRB" 0xFFFFFFFFFFFFFFFF00#72 0x310000000000000000#72).covers 0x3100000000000000FF#72
      ∧ ¬ (OpcodeRow.mk "WRB" 0xFFFFFFFFFFFFFFFF00#72 0x310000000000000000#72).covers 0x310000000000000100#72
      ∧ OpcodeRow.mk "ENDCH" 0xFFFFFFFFFFFFFFFFFF#72 0x340000000000000000#72 ∈ opcodeMap
      ∧ (OpcodeRow.mk "ENDCH" 0xFFFFFFFFFFFFFFFFFF#72 0x340000000000000000#72).covers 0x340000000000000000#72
      ∧ OpcodeRow.mk "BEGCH" 0xFF0000000000000000#72 0x300000000000000000#72 ∈ opcodeMap
      ∧ (OpcodeRow.mk "BEGCH" 0xFF0000000000000000#72 0x300000000000000000#72).covers 0x30FFFFFFFFFFFFFFFF#72 := by decide

/-- FaultedBlockIgnoresEveryWord, OnlyResetLeavesTheFaultedState, ResetInputLeavesTheResetState: the faulted block, a status
register that reads a value, the last offset below OLEN. -/
theorem witness_faulted :
    faulted.fault = true ∧ faulted.statusValue 4#3 = some 0#32 ∧ (7#64).toNat < faulted.olen.toNat
      ∧ (nextState (step { faulted with port := [.rst] })).map (·.fault) = some false
      ∧ { faulted with port := [.rst] }.port = .rst :: [] ∧ { faulted with port := [.cmd 0#72] }.port = .cmd 0#72 :: []
      ∧ { faulted with port := [.statusRead 4#3] }.port = .statusRead 4#3 :: []
      ∧ { faulted with port := [.bufRead 7#64] }.port = .bufRead 7#64 :: []
      ∧ BufferDense { faulted with port := [.bufRead 7#64] } := by
  unfold BufferDense
  decide

/-- IdleBlockDoesNothing. -/
theorem witness_idle_port : State.reset.port = [] := by decide

/-- FaultEntryIsPrecise: a word that raises a fault, legal and illegal. -/
theorem witness_fault_entry :
    (opened 64#64 0#32).fault = false
      ∧ ∃ t u, issue 0x310000000000000000#72 (opened 64#64 0#32) = .next t ∧ t.fault = true
        ∧ issue 0#72 (opened 64#64 0#32) = .next u ∧ u.fault = true :=
  ⟨by decide, _, _, rfl, by decide, rfl, by decide⟩

/-- FirstFaultConditionIsReported: a state where no condition holds, and one for each cause a command can raise, each the
first in priority (`E_LEN` with `E_OVF` also holding). -/
theorem witness_fault_conditions :
    (∀ k : Cause, ¬ faultCondition k .endch (opened 64#64 0#32))
      ∧ faultCondition .proto (.wrab 0#8) (idle 64#64)
      ∧ (faultCondition .uninit (.wrab 0#8) (opened 64#64 1#32) ∧ ¬ faultCondition .proto (.wrab 0#8) (opened 64#64 1#32))
      ∧ (faultCondition .len .endch (opened 8#64 1#32) ∧ faultCondition .ovf .endch (opened 8#64 1#32)
        ∧ ¬ faultCondition .proto .endch (opened 8#64 1#32))
      ∧ (faultCondition .ovf .endch (opened 11#64 0#32) ∧ ¬ faultCondition .len .endch (opened 11#64 0#32)
        ∧ ¬ faultCondition .proto .endch (opened 11#64 0#32)) := by
  refine ⟨fun k => ?_, ?_, ?_, ?_, ?_⟩
  · cases k <;> unfold faultCondition <;> decide
  all_goals unfold faultCondition
  all_goals decide

/-- ProtocolTableIsThatOfR87: a command shut out, and one accepted with exactly the room of its four bytes, with what it
needs and without. -/
theorem witness_protocol :
    (shutOut .endch (idle 12#64).chopen = true ∧ (idle 12#64).fault = false)
      ∧ shutOut .endch (opened 12#64 0#32).chopen = false
      ∧ OpenChunkCounted (opened 12#64 0#32) ∧ OpenChunkCounted (opened 12#64 1#32)
      ∧ 0 < bytesEmitted .endch
      ∧ (opened 12#64 0#32).olen.toNat + bytesEmitted .endch ≤ (opened 12#64 0#32).obufCap.toNat
      ∧ (opened 12#64 0#32).wcnt = (opened 12#64 0#32).dlen ∧ (opened 12#64 1#32).wcnt ≠ (opened 12#64 1#32).dlen := by
  unfold OpenChunkCounted
  decide

/-- CapacityIsCheckedForAllBytes, EmittedBytesStandInOrder, CommandsStoreOnlyAtTheCursor, CommandsWriteOnlyWhatR11Marks: the
four bytes of `ENDCH` with room for three and for four, and `CLR`. -/
theorem witness_capacity :
    0 < bytesEmitted .endch
      ∧ (opened 11#64 0#32).olen.toNat + bytesEmitted .endch > (opened 11#64 0#32).obufCap.toNat
      ∧ (∀ k ∈ [Cause.proto, Cause.uninit, Cause.len], ¬ faultCondition k .endch (opened 11#64 0#32))
      ∧ (after .endch (opened 12#64 0#32)).fault = false
      ∧ (opened 12#64 0#32).olen.toNat + bytesEmitted .endch ≤ (opened 12#64 0#32).obufCap.toNat
      ∧ (emission .endch (opened 12#64 0#32))[3]? = some 0x82#8
      ∧ (after .clr (idle 64#64)).fault = false ∧ (after .endch (opened 11#64 0#32)).fault = true := by
  refine ⟨by decide, by decide, fun k hk => ?_, by decide, by decide, by decide, by decide, by decide⟩
  cases k <;> revert hk <;> unfold faultCondition <;> decide

/-- StepKeepsTheBufferCanonical. -/
theorem witness_canonical :
    Memory.wf (opened 64#64 0#32).obuf = true
      ∧ ∃ t, step { opened 64#64 0#32 with port := [.cmd 0x340000000000000000#72] } = .next t := ⟨by decide, _, rfl⟩

/-- BufferReadReturnsTheAppendedByte, OnlyReadsBeyondOlenAreRefused: the last offset below OLEN and OLEN itself. -/
theorem witness_buffer_read :
    BufferDense (opened 64#64 0#32) ∧ (7#64).toNat < (opened 64#64 0#32).olen.toNat
      ∧ (opened 64#64 0#32).olen.toNat ≤ (8#64).toNat
      ∧ { opened 64#64 0#32 with port := [.bufRead 7#64] }.port = .bufRead 7#64 :: []
      ∧ ∃ r, step { opened 64#64 0#32 with port := [.bufRead 8#64] } = .refused r := by
  refine ⟨?_, by decide, by decide, by decide, _, rfl⟩
  unfold BufferDense
  decide

/-- StatusRegistersOneToSevenRead, StatusReadChangesNoBlockState. -/
theorem witness_status_reads :
    (opened 64#64 0#32).crcv = true ∧ (idle 64#64).crcv = false ∧ (openedAdler 64#64 0#32).adlv = true
      ∧ (idle 64#64).adlv = false
      ∧ { idle 64#64 with port := [.statusRead 1#3] }.port = .statusRead 1#3 :: [] := by decide

/-- ClrDiscardsTheOutputBuffer, CrcinitSetsAllOnes, AdlinitSetsOneAndZero. -/
theorem witness_clr_crcinit :
    ((opened 64#64 0#32).fault = false ∧ (opened 64#64 0#32).chopen = true)
      ∧ (idle 64#64).fault = false ∧ (idle 64#64).chopen = false := by decide

/-- RawbAppendsOneUncoveredByte, with no byte of room and with one. -/
theorem witness_rawb :
    ({ idle 8#64 with olen := 8#64 }.chopen = false ∧ { idle 8#64 with olen := 8#64 }.olen.toNat + 1 > (idle 8#64).obufCap.toNat)
      ∧ { idle 8#64 with olen := 7#64 }.olen.toNat + 1 ≤ (idle 8#64).obufCap.toNat
      ∧ (opened 64#64 0#32).chopen = true := by decide

/-- CrcbFoldsOneByte, AdlbFoldsOneByte. -/
theorem witness_crcb_adlb :
    ((idle 64#64).chopen = false ∧ (idle 64#64).crcv = false ∧ (idle 64#64).adlv = false)
      ∧ ({ idle 64#64 with crcv := true }.chopen = false ∧ { idle 64#64 with crcv := true }.crcv = true)
      ∧ (openedAdler 64#64 0#32).adlv = true := by decide

/-- BegchOpensAChunk, with seven bytes of room and with eight. -/
theorem witness_begch :
    ((idle 7#64).chopen = false ∧ (idle 7#64).olen.toNat + 8 > (idle 7#64).obufCap.toNat)
      ∧ ((idle 8#64).chopen = false ∧ (idle 8#64).olen.toNat + 8 ≤ (idle 8#64).obufCap.toNat) := by decide

/-- WrbAppendsAndFolds: at the declared length, below it without room and with one byte of room. -/
theorem witness_wrb :
    (idle 64#64).chopen = false
      ∧ ((opened 9#64 0#32).chopen = true ∧ (opened 9#64 0#32).wcnt = (opened 9#64 0#32).dlen)
      ∧ ((opened 8#64 1#32).wcnt ≠ (opened 8#64 1#32).dlen
        ∧ (opened 8#64 1#32).olen.toNat + 1 > (opened 8#64 1#32).obufCap.toNat)
      ∧ ((opened 9#64 1#32).wcnt ≠ (opened 9#64 1#32).dlen
        ∧ (opened 9#64 1#32).olen.toNat + 1 ≤ (opened 9#64 1#32).obufCap.toNat) := by decide

/-- WrabFoldsBothAndAppends: the same with the pair invalid and valid. -/
theorem witness_wrab :
    ((opened 9#64 1#32).chopen = true ∧ (opened 9#64 1#32).adlv = false)
      ∧ ((openedAdler 9#64 0#32).adlv = true ∧ (openedAdler 9#64 0#32).wcnt = (openedAdler 9#64 0#32).dlen)
      ∧ ((openedAdler 8#64 1#32).wcnt ≠ (openedAdler 8#64 1#32).dlen
        ∧ (openedAdler 8#64 1#32).olen.toNat + 1 > (openedAdler 8#64 1#32).obufCap.toNat)
      ∧ ((openedAdler 9#64 1#32).chopen = true ∧ (openedAdler 9#64 1#32).adlv = true
        ∧ (openedAdler 9#64 1#32).wcnt ≠ (openedAdler 9#64 1#32).dlen
        ∧ (openedAdler 9#64 1#32).olen.toNat + 1 ≤ (openedAdler 9#64 1#32).obufCap.toNat) := by decide

/-- WradlWritesTheCombinedValue: three and four bytes of declared length, three and four of room. -/
theorem witness_wradl :
    ((opened 64#64 4#32).chopen = true ∧ (opened 64#64 4#32).adlv = false)
      ∧ ((openedAdler 64#64 3#32).adlv = true ∧ (openedAdler 64#64 3#32).wcnt.toNat + 4 > (openedAdler 64#64 3#32).dlen.toNat)
      ∧ ((openedAdler 11#64 4#32).wcnt.toNat + 4 ≤ (openedAdler 11#64 4#32).dlen.toNat
        ∧ (openedAdler 11#64 4#32).olen.toNat + 4 > (openedAdler 11#64 4#32).obufCap.toNat)
      ∧ ((openedAdler 12#64 4#32).chopen = true ∧ (openedAdler 12#64 4#32).adlv = true
        ∧ (openedAdler 12#64 4#32).wcnt.toNat + 4 ≤ (openedAdler 12#64 4#32).dlen.toNat
        ∧ (openedAdler 12#64 4#32).olen.toNat + 4 ≤ (openedAdler 12#64 4#32).obufCap.toNat) := by decide

/-- EndchAppendsTheComplementAndCloses: short of the declared length, at it with three bytes of room and with four. -/
theorem witness_endch :
    ((opened 64#64 1#32).chopen = true ∧ (opened 64#64 1#32).wcnt ≠ (opened 64#64 1#32).dlen)
      ∧ ((opened 11#64 0#32).wcnt = (opened 11#64 0#32).dlen
        ∧ (opened 11#64 0#32).olen.toNat + 4 > (opened 11#64 0#32).obufCap.toNat)
      ∧ ((opened 12#64 0#32).chopen = true ∧ (opened 12#64 0#32).wcnt = (opened 12#64 0#32).dlen
        ∧ (opened 12#64 0#32).olen.toNat + 4 ≤ (opened 12#64 0#32).obufCap.toNat) := by decide

/-- AdlerStepStaysInRange, at the top of the range. -/
theorem witness_adler_range : (65520#16).toNat < 65521 := by decide

/-- CrcCommandsComputeTheFold, AdlerCommandsComputeTheFold: a block outside a chunk, and a payload written without fault. -/
theorem witness_folds :
    ((idle 64#64).fault = false ∧ (idle 64#64).chopen = false)
      ∧ (∃ t, execList (.begch tagEnd 1#32 :: [0x2A#8].map .wrb) (idle 64#64) = .next t ∧ t.fault = false)
      ∧ ∃ t u, (openedAdler 64#64 1#32).fault = false ∧ exec (.wrab 0#8) (openedAdler 64#64 1#32) = .next t ∧ t.fault = false
        ∧ exec (.adlb 0#8) (openedAdler 64#64 1#32) = .next u :=
  ⟨by decide, ⟨_, rfl, by decide⟩, _, _, by decide, rfl, by decide, rfl⟩

/-- WrabIsAdlbThenWrb, WradlIsFourWrb: both sides run without a fault. -/
theorem witness_equivalences :
    (∃ t, t.fault = false ∧ exec (.wrab 0#8) (openedAdler 64#64 4#32) = .next t)
      ∧ (∃ t, t.fault = false ∧ execList [.adlb 0#8, .wrb 0#8] (openedAdler 64#64 4#32) = .next t)
      ∧ ∃ t, t.fault = false ∧ exec .wradl (openedAdler 64#64 4#32) = .next t :=
  ⟨⟨_, by decide, rfl⟩, ⟨_, by decide, rfl⟩, _, by decide, rfl⟩

/-- InvariantsHoldAfterReset: the least legal capacity. -/
theorem witness_least_capacity : (1#64 : Offset) ≠ 0#64 := by decide

/-- EveryStepKeepsTheInvariants, OutputOnlyGrows: a step that appends. -/
theorem witness_step :
    Inv { idle 70#64 with port := [.cmd 0x020000000000000089#72] }
      ∧ (∃ t, step { idle 70#64 with port := [.cmd 0x020000000000000089#72] } = .next t ∧ outputBytes t = [0x89#8])
      ∧ { idle 70#64 with port := [.cmd 0x020000000000000089#72] }.port.head? ≠ some .rst
      ∧ { idle 70#64 with port := [.cmd 0x020000000000000089#72] }.port.head? ≠ some (.cmd 0x010000000000000000#72) :=
  ⟨⟨witness_inv_idle.adler, witness_inv_idle.counted, witness_inv_idle.capacity, witness_inv_idle.cause,
      witness_inv_idle.chunk, witness_inv_idle.dense, witness_inv_idle.legal⟩,
    ⟨_, rfl, by decide⟩, by decide, by decide⟩

/-- UninitialisedRegistersNeverMatter: two states that differ in CRC, S1 and S2, none of them valid. -/
theorem witness_same_specified :
    Inv (idle 70#64) ∧ SameSpecified (idle 70#64) { idle 70#64 with crc := 7#32, s1 := 8#16, s2 := 9#16 }
      ∧ idle 70#64 ≠ { idle 70#64 with crc := 7#32, s1 := 8#16, s2 := 9#16 } :=
  ⟨witness_inv_idle, ⟨fun h => absurd h (by decide), fun h => absurd h (by decide), rfl⟩, by decide⟩

/-- EveryChunkIsWellFormed: a byte outside every chunk and a whole chunk with a payload. -/
theorem witness_chunks :
    Inv (idle 70#64) ∧ (idle 70#64).chopen = false
      ∧ Instr.clr ∉ [.rawb 0x89#8, .begch tagEnd 1#32, .wrb 0x2A#8, .endch]
      ∧ ∃ t, execList [.rawb 0x89#8, .begch tagEnd 1#32, .wrb 0x2A#8, .endch] (idle 70#64) = .next t
        ∧ t.fault = false ∧ t.chopen = false :=
  ⟨witness_inv_idle, by decide, by decide, _, rfl, by decide, by decide⟩

/-- ChunkSequenceAppendsItsBytes: exactly the room of the chunk. -/
theorem witness_chunk_sequence :
    (idle 70#64).fault = false ∧ (idle 70#64).chopen = false ∧ (List.replicate 58 0x2A#8).length < 2 ^ 32
      ∧ (idle 70#64).olen.toNat + 12 + (List.replicate 58 0x2A#8).length ≤ (idle 70#64).obufCap.toNat := by decide

/-- ImageDataPayloadHasTheDeclaredLength, FileLengthAndCommandCount, FileSequenceYieldsTheFile,
ImageDataStripsToTheScanlines: images the host may start, and a block with exactly the room of the first. -/
theorem witness_images :
    onePixel.mayStart = true ∧ fourPixels.mayStart = true ∧ (idle 70#64).fault = false ∧ (idle 70#64).chopen = false
      ∧ onePixel.fileLength ≤ (idle 70#64).obufCap.toNat := by decide

end Sys2Proof.Tests
end

section
/-! PROOFS. What the checks of a command that pass say of the state, and the laws of the two checksum folds. -/

namespace Sys2Proof.Machine

open Sys2Proof.Safety

/-- A sequence may be cut and folded piece by piece (R62). -/
theorem crcFold_append (c : Word) (p q : List Byte) : crcFold c (p ++ q) = crcFold (crcFold c p) q := by
  induction p generalizing c with
  | nil => rfl
  | cons b p ih => exact ih _

/-- Both halves of an Adler step are residues modulo 65521, whatever the pair was (R70). -/
theorem adlerStep_lt (p : Half × Half) (b : Byte) :
    (adlerStep p b).1.toNat < 65521 ∧ (adlerStep p b).2.toNat < 65521 := by
  simp only [adlerStep, adlerMod, BitVec.toNat_ofNat]
  omega

/-- The pair `ADLINIT` writes is in range (R6, R72). -/
theorem adlerInit_lt : adlerInit.1.toNat < 65521 ∧ adlerInit.2.toNat < 65521 := by decide

/-- The cause codes are 1 to 5 (R131). -/
theorem Cause.code_range (k : Cause) : 1 ≤ k.code.toNat ∧ k.code.toNat ≤ 5 := by
  cases k <;> decide

/-- A command whose checks pass is accepted in the present chunk state and has what the table of R87 says it needs. -/
theorem accepted_of_checks {i : Instr} {s : State} (h : firstRaised (checksOf i s) = none)
    (hc : OpenChunkCounted s) : shutOut i s.chopen = false ∧ needs i s := by
  have below (hopen : s.chopen = true) (hne : s.wcnt ≠ s.dlen) : s.wcnt.toNat < s.dlen.toNat :=
    lt_of_le_of_ne (hc hopen).2 fun he => hne (BitVec.eq_of_toNat_eq he)
  rw [checks_pass_iff] at h
  have hproto := h .proto
  have huninit := h .uninit
  have hlen := h .len
  cases i with
  | clr | rawb | crcinit | begch => simpa [faultCondition, shutOut, needs] using hproto
  | adlinit => exact ⟨rfl, trivial⟩
  | crcb => exact ⟨by simpa [shutOut, faultCondition] using hproto, by simpa [needs, faultCondition] using huninit⟩
  | adlb => exact ⟨rfl, by simpa [needs, faultCondition] using huninit⟩
  | wrb =>
    simp only [faultCondition, Bool.not_eq_false] at hproto hlen
    exact ⟨by simp [shutOut, hproto], below hproto hlen⟩
  | wrab =>
    simp only [faultCondition, Bool.not_eq_false] at hproto huninit hlen
    exact ⟨by simp [shutOut, hproto], huninit, below hproto hlen⟩
  | wradl =>
    simp only [faultCondition, Bool.not_eq_false, not_lt] at hproto huninit hlen
    exact ⟨by simp [shutOut, hproto], huninit, hlen⟩
  | endch =>
    simp only [faultCondition, Bool.not_eq_false, not_not] at hproto hlen
    exact ⟨by simp [shutOut, hproto], hlen⟩

end Sys2Proof.Machine
end

section
/-! PROOFS. The invariants of 10_state.md R22: each operation on the state keeps them, hence every command, every host event
and every step. -/

namespace Sys2Proof.Safety

open Sys2Proof.Machine

/-- With no chunk open there is nothing to count (R22 item 2). -/
theorem openChunkCounted_of_closed {s : State} (h : s.chopen = false) : OpenChunkCounted s := by
  simp [OpenChunkCounted, h]

/-- With no chunk open there is no chunk for OBUF and CRC to agree with (R22 item 5). -/
theorem openChunkConsistent_of_closed {s : State} (h : s.chopen = false) : OpenChunkConsistent s := by
  simp [OpenChunkConsistent, h]

/-- The reset state meets the invariants for every legal capacity (R22, R23). -/
theorem inv_resetWithCapacity {cap : Offset} (h : cap ≠ 0#64) : Inv (resetWithCapacity cap) where
  adler := nofun
  counted := nofun
  capacity := Nat.zero_le _
  cause := ⟨fun _ => rfl, nofun⟩
  chunk := nofun
  dense := rfl
  legal := h

/-- The model's own fields for the ports are in none of the invariants. -/
theorem Inv.withPorts {s : State} (h : Inv s) (port : List HostEvent) (sr : Option Word) (rd : Option Byte) (d : Nat) :
    Inv { s with port := port, srData := sr, rdData := rd, draws := d } :=
  ⟨h.adler, h.counted, h.capacity, h.cause, h.chunk, h.dense, h.legal⟩

theorem Inv.applyReset {s : State} (h : Inv s) : Inv s.applyReset :=
  (inv_resetWithCapacity h.legal).withPorts s.port s.srData s.rdData s.draws

theorem Inv.raise {s : State} (h : Inv s) (k : Cause) : Inv (s.raise k) :=
  ⟨h.adler, h.counted, h.capacity, ⟨nofun, fun _ => k.code_range⟩, h.chunk, h.dense, h.legal⟩

theorem Inv.foldAdler {s : State} (h : Inv s) (b : Byte) : Inv (s.foldAdler b) :=
  ⟨fun _ => adlerStep_lt _ b, h.counted, h.capacity, h.cause, h.chunk, h.dense, h.legal⟩

/-- Closing the chunk: nothing is left that its declared length and CRC speak of. -/
theorem Inv.close {s : State} (h : Inv s) : Inv { s with chopen := false } :=
  ⟨h.adler, nofun, h.capacity, h.cause, nofun, h.dense, h.legal⟩

/-- Appending with room: the buffer stays dense, the output gets the bytes at its end, the cursor stays within the
capacity (R31, R33). -/
theorem appendSeq_output {s : State} {bs : List Byte} (hd : BufferDense s)
    (hroom : s.olen.toNat + bs.length ≤ s.obufCap.toNat) :
    BufferDense (s.appendSeq bs) ∧ outputBytes (s.appendSeq bs) = outputBytes s ++ bs
      ∧ WithinCapacity (s.appendSeq bs) := by
  have hw := s.noWrap _ hroom
  obtain ⟨hfst, hsnd⟩ := Memory.writeSeq_dense bs s.obuf s.olen.toNat hd
  refine ⟨?_, ?_, ?_⟩
  · rw [BufferDense, State.appendSeq_obuf bs s hw, State.appendSeq_olen_toNat bs s hw, hfst]
  · rw [outputBytes, State.appendSeq_obuf bs s hw, hsnd]; rfl
  · rw [WithinCapacity, State.appendSeq_olen_toNat bs s hw, State.appendSeq_obufCap]; exact hroom

/-- Appending outside a chunk, with room (R81). -/
theorem Inv.appendSeq {s : State} (h : Inv s) {bs : List Byte} (hclosed : s.chopen = false)
    (hroom : s.olen.toNat + bs.length ≤ s.obufCap.toNat) : Inv (s.appendSeq bs) := by
  obtain ⟨hdense, -, hcap⟩ := appendSeq_output h.dense hroom
  exact {
    adler := by simpa [AdlerInRange] using h.adler
    counted := openChunkCounted_of_closed (by simpa using hclosed)
    capacity := hcap
    cause := by simpa [CauseMatchesFault] using h.cause
    chunk := openChunkConsistent_of_closed (by simpa using hclosed)
    dense := hdense
    legal := by simpa [CapacityLegal] using h.legal }

/-- Emission into the open chunk, with declared length and room left for all bytes (R82, R84, R85): the payload so far
grows by the bytes, and CRC folds them. -/
theorem Inv.emitCovered {s : State} (h : Inv s) {bs : List Byte} (hopen : s.chopen = true)
    (hlen : s.wcnt.toNat + bs.length ≤ s.dlen.toNat) (hroom : s.olen.toNat + bs.length ≤ s.obufCap.toNat) :
    Inv (s.emitCovered bs) := by
  obtain ⟨hdense, hout, hcap⟩ := appendSeq_output h.dense hroom
  have hwcnt : (s.emitCovered bs).wcnt.toNat = s.wcnt.toNat + bs.length := by
    have := s.dlen.isLt
    simp only [State.emitCovered_wcnt, BitVec.toNat_add, BitVec.toNat_ofNat]
    omega
  refine {
    adler := by simpa [AdlerInRange] using h.adler
    counted := fun _ => ?_
    capacity := by simpa [WithinCapacity] using hcap
    cause := by simpa [CauseMatchesFault] using h.cause
    chunk := fun _ => ?_
    dense := hdense
    legal := by simpa [CapacityLegal] using h.legal }
  · rw [hwcnt, State.emitCovered_crcv, State.emitCovered_dlen]
    exact ⟨(h.counted hopen).1, hlen⟩
  · obtain ⟨before, tag, p, hbytes, hp, hcrc⟩ := h.chunk hopen
    refine ⟨before, tag, p ++ bs, ?_, ?_, ?_⟩
    · rw [State.emitCovered_dlen, show outputBytes (s.emitCovered bs) = outputBytes s ++ bs from hout, hbytes]
      simp only [List.append_assoc]
    · rw [List.length_append, hp, hwcnt]
    · rw [State.emitCovered_crc, hcrc, ← crcFold_append, List.append_assoc]

/-- A command whose checks pass keeps the invariants. -/
theorem Inv.of_effect {i : Instr} {s : State} (h : Inv s) (hk : firstRaised (checksOf i s) = none) :
    Inv (effectOf i s) := by
  obtain ⟨hchunk, hneeds⟩ := accepted_of_checks hk h.counted
  have hroom := room_of_checks hk
  cases i with
  | clr => exact ⟨h.adler, h.counted, Nat.zero_le _, h.cause, openChunkConsistent_of_closed hchunk, rfl, h.legal⟩
  | rawb b => exact h.appendSeq (bs := [b]) hchunk (hroom Nat.one_pos)
  | crcinit =>
    exact ⟨h.adler, openChunkCounted_of_closed hchunk, h.capacity, h.cause,
      openChunkConsistent_of_closed hchunk, h.dense, h.legal⟩
  | crcb b =>
    exact ⟨h.adler, h.counted, h.capacity, h.cause, openChunkConsistent_of_closed hchunk, h.dense, h.legal⟩
  | adlinit => exact ⟨fun _ => adlerInit_lt, h.counted, h.capacity, h.cause, h.chunk, h.dense, h.legal⟩
  | adlb b => exact h.foldAdler b
  | begch tag len =>
    obtain ⟨-, hout, -⟩ := appendSeq_output (bs := be32 len ++ be32 tag) h.dense (hroom (by simp [bytesEmitted]))
    have ha := h.appendSeq (bs := be32 len ++ be32 tag) hchunk (hroom (by simp [bytesEmitted]))
    refine ⟨ha.adler, fun _ => ⟨rfl, Nat.zero_le _⟩, ha.capacity, ha.cause, fun _ => ?_, ha.dense, ha.legal⟩
    exact ⟨outputBytes s, tag, [], by rw [List.append_nil]; exact hout, rfl, by rw [List.append_nil]; rfl⟩
  | wrb b => exact h.emitCovered (by simpa [shutOut] using hchunk) hneeds (hroom Nat.one_pos)
  | wrab b => exact (h.foldAdler b).emitCovered (by simpa [shutOut] using hchunk) hneeds.2 (hroom Nat.one_pos)
  | wradl => exact h.emitCovered (by simpa [shutOut] using hchunk) hneeds.2 (hroom (by simp [bytesEmitted]))
  | endch => exact h.close.appendSeq (bs := be32 (~~~s.crc)) rfl (hroom (by simp [bytesEmitted]))

/-- Every command keeps the invariants. -/
theorem Inv.of_exec {i : Instr} {s t : State} (h : Inv s) (hx : exec i s = .next t) : Inv t := by
  rcases exec_cases hx with ⟨-, rfl⟩ | ⟨-, k, -, rfl⟩ | ⟨-, hk, rfl⟩
  · exact h
  · exact h.raise k
  · exact h.of_effect hk

/-- Every host event keeps the invariants. -/
theorem Inv.of_event {s t : State} {e : HostEvent} (h : Inv s) (he : EventEffect s e t) : Inv t := by
  cases he with
  | ran hd hx => exact h.of_exec hx
  | ignored hd hf => exact h
  | raised hd hf => exact h.raise .illegal
  | reset => exact h.applyReset
  | status n v d => exact h.withPorts _ _ _ _
  | buffer a b ha => exact h.withPorts _ _ _ _

/-- Settles O48: each host event keeps the invariants, and they do not speak of the port. -/
theorem everyStepKeepsTheInvariants : Obligations.EveryStepKeepsTheInvariants := by
  intro s t h hstep
  rcases step_cases hstep with ⟨-, rfl⟩ | ⟨e, rest, -, he⟩
  · exact h
  · exact (h.withPorts rest s.srData s.rdData s.draws).of_event he

/-- Settles O47. -/
theorem invariantsHoldAfterReset : Obligations.InvariantsHoldAfterReset :=
  ⟨fun _ hcap => inv_resetWithCapacity hcap, inv_resetWithCapacity (cap := Config.obufCapDefault) (by decide)⟩

end Sys2Proof.Safety
end

section
/-! PROOFS. The two read ports, case by case, and what a status read answers (10_state.md R15 to R17, 20_memory.md R36). -/

namespace Sys2Proof.Machine

/-! ### What each status register holds (R16, R17) -/

@[simp] theorem State.statusValue_0 (s : State) : s.statusValue 0#3 = some s.status := rfl
@[simp] theorem State.statusValue_1 (s : State) : s.statusValue 1#3 = if s.crcv then some s.crc else none := rfl
@[simp] theorem State.statusValue_2 (s : State) :
    s.statusValue 2#3 = if s.adlv then some (combined s.s1 s.s2) else none := rfl
@[simp] theorem State.statusValue_3 (s : State) : s.statusValue 3#3 = some s.dlen := rfl
@[simp] theorem State.statusValue_4 (s : State) : s.statusValue 4#3 = some s.wcnt := rfl
@[simp] theorem State.statusValue_5 (s : State) : s.statusValue 5#3 = some (s.olen.extractLsb' 0 32) := rfl
@[simp] theorem State.statusValue_6 (s : State) : s.statusValue 6#3 = some (s.olen.extractLsb' 32 32) := rfl
@[simp] theorem State.statusValue_7 (s : State) : s.statusValue 7#3 = some 0#32 := rfl

/-- The upper half of the combined value is S2 (R71). -/
theorem combined_high (s1 s2 : Half) : (combined s1 s2).extractLsb' 16 16 = s2 := by
  apply BitVec.eq_of_getLsbD_eq
  intro j hj
  simp [combined, hj, show 16 + j < 32 by omega]

/-- The lower half of the combined value is S1 (R71). -/
theorem combined_low (s1 s2 : Half) : (combined s1 s2).extractLsb' 0 16 = s1 := by
  apply BitVec.eq_of_getLsbD_eq
  intro j hj
  simp [combined, hj, show j < 32 by omega]

/-! ### The answers of the read ports -/

/-- A status read of a register with a specified value answers it (R15). -/
theorem statusRead_specified {n : BitVec 3} {s : State} {v : Word} (h : s.statusValue n = some v) :
    statusRead n s = .next { s with srData := some v } := by
  simp [statusRead, h]

/-- A status read of a register without one answers a fresh draw (R17; log entry 5). -/
theorem statusRead_unspecified {n : BitVec 3} {s : State} (h : s.statusValue n = none) :
    statusRead n s = .next { s with srData := some (Config.freeWord s.draws), draws := s.draws + 1 } := by
  simp [statusRead, h]

/-- A buffer read below OLEN of an offset that holds a byte answers it (R36). -/
theorem bufferRead_byte {a : Offset} {s : State} {b : Byte} (ha : a.toNat < s.olen.toNat)
    (hb : Memory.read s.obuf a.toNat = some b) : bufferRead a s = .next { s with rdData := some b } := by
  simp [bufferRead, ha, hb]

/-- A buffer read below OLEN of an offset that holds nothing is a fault of the model (log entry 14). -/
theorem bufferRead_hole {a : Offset} {s : State} (ha : a.toNat < s.olen.toNat)
    (hb : Memory.read s.obuf a.toNat = none) : bufferRead a s = .fault (.bufferHole a) := by
  simp [bufferRead, ha, hb]

/-- A buffer read at or above OLEN is refused (R36, U4). -/
theorem bufferRead_beyond {a : Offset} {s : State} (ha : ¬ a.toNat < s.olen.toNat) :
    bufferRead a s = .refused (.readBeyondOlen a) := by
  simp [bufferRead, ha]

section StatusStep

variable {s : State} {n : BitVec 3} {rest : List HostEvent}

theorem step_statusRead_specified (h : s.port = .statusRead n :: rest) {v : Word} (hv : s.statusValue n = some v) :
    step s = .next { s with port := rest, srData := some v } := by
  rw [step_event h]; exact statusRead_specified hv

theorem step_statusRead_unspecified (h : s.port = .statusRead n :: rest) (hv : s.statusValue n = none) :
    step s = .next { s with port := rest, srData := some (Config.freeWord s.draws), draws := s.draws + 1 } := by
  rw [step_event h]; exact statusRead_unspecified hv

end StatusStep

/-! ### The fields of STATUS (R16): its pieces stand side by side, so the widths of those below place each one -/

theorem State.status_flags (s : State) :
    s.status.getLsbD 0 = s.chopen ∧ s.status.getLsbD 1 = s.crcv ∧ s.status.getLsbD 2 = s.adlv
      ∧ s.status.getLsbD 3 = s.fault := by
  simp only [State.status, BitVec.getLsbD_append, BitVec.getLsbD_ofBool]
  exact ⟨rfl, rfl, rfl, rfl⟩

theorem State.status_fields (s : State) :
    s.status.extractLsb' 4 4 = 0#4 ∧ s.status.extractLsb' 8 4 = s.cause ∧ s.status.extractLsb' 12 20 = 0#20 := by
  refine ⟨?_, ?_, ?_⟩ <;>
    simp (disch := omega) only [State.status, BitVec.extractLsb'_append_eq_of_le, BitVec.extractLsb'_append_eq_right,
      BitVec.extractLsb'_eq_self, Nat.reduceSub]

/-! ### The statements about the status port -/

/-- Settles O7. -/
theorem stepRunsTheDecodedCommand : Obligations.StepRunsTheDecodedCommand := by
  intro s w rest i hp hd
  rw [step_event hp]
  exact issue_command hd _

/-- Settles O13. -/
theorem stateAfterResetIsThatOfR23 : Obligations.StateAfterResetIsThatOfR23 :=
  ⟨rfl, rfl, rfl, rfl, rfl, rfl, rfl, rfl, rfl, State.statusValue_1 _, State.statusValue_2 _⟩

/-- Settles O24. -/
theorem statusRegisterZeroFields : Obligations.StatusRegisterZeroFields := by
  refine ⟨fun s => ⟨s.statusValue_0, ?_⟩, rfl⟩
  obtain ⟨hchopen, hcrcv, hadlv, hfault⟩ := s.status_flags
  exact ⟨hchopen, hcrcv, hadlv, hfault, s.status_fields⟩

/-- Settles O25: each clause is the read of a register with a value, or of one without. -/
theorem statusRegistersOneToSevenRead : Obligations.StatusRegistersOneToSevenRead := by
  refine ⟨⟨rfl, rfl, by decide⟩, fun s n rest hp => ⟨?_, ?_, ?_, ?_, ?_, ?_, ?_, ?_, ?_⟩⟩ <;> rintro rfl
  · exact fun hv => step_statusRead_specified hp (by simp [hv])
  · exact fun hv => step_statusRead_unspecified hp (by simp [hv])
  · exact fun hv => ⟨combined s.s1 s.s2, step_statusRead_specified hp (by simp [hv]), combined_high _ _, combined_low _ _⟩
  · exact fun hv => step_statusRead_unspecified hp (by simp [hv])
  all_goals exact step_statusRead_specified hp (by simp)

/-- Settles O26. -/
theorem statusReadChangesNoBlockState : Obligations.StatusReadChangesNoBlockState := by
  intro s n rest hp
  obtain ⟨v, d, hv⟩ := statusRead_cases n { s with port := rest }
  exact ⟨_, v, (step_event hp).trans hv, rfl⟩

end Sys2Proof.Machine
end

section
/-! PROOFS. A word that decodes is the word of its command (30_encoding.md R47 to R50). -/

namespace Sys2Proof

/-- A word with zeros above its low byte is that byte, widened (R47). -/
theorem eq_setWidth_of_high_zero {v : Word} (h : v.extractLsb' 8 24 = 0#24) : v = (v.extractLsb' 0 8).setWidth 32 := by
  refine BitVec.eq_of_getLsbD_eq fun k hk => ?_
  rw [BitVec.getLsbD_setWidth, BitVec.getLsbD_extractLsb']
  by_cases h8 : k < 8
  · simp [hk, h8]
  · have hbit := congrArg (BitVec.getLsbD · (k - 8)) h
    simp only [BitVec.getLsbD_extractLsb', show 8 + (k - 8) = k by omega, show k - 8 < 24 by omega] at hbit
    simpa [h8] using hbit

section Formats

variable {c : RawCommand} {i : Instr} {op : Byte}

theorem fields_of_decodeN {j : Instr} (hop : c.op = op) (h : decodeN c j = .command i)
    (hj : j.fields = fieldsN op) : c = i.fields := by
  obtain ⟨op, a, b⟩ := c
  subst hop
  simp only [decodeN] at h
  split at h
  · next hab =>
    obtain ⟨rfl, rfl⟩ := hab
    obtain rfl := Decoded.command.inj h
    rw [hj, fieldsN]
  · cases h

theorem fields_of_decodeB {j : Byte → Instr} (hop : c.op = op) (h : decodeB c j = .command i)
    (hj : ∀ b, (j b).fields = fieldsB op b) : c = i.fields := by
  obtain ⟨op, a, b⟩ := c
  subst hop
  simp only [decodeB] at h
  split at h
  · next hab =>
    obtain ⟨rfl, hb⟩ := hab
    obtain rfl := Decoded.command.inj h
    rw [hj, fieldsB, ← eq_setWidth_of_high_zero hb]
  · cases h

end Formats

/-- The fields of a command word are those of the command it decodes to (R49, R50). -/
theorem fields_of_decodeFields {c : RawCommand} {i : Instr} (h : decodeFields c = .command i) : c = i.fields := by
  simp only [decodeFields, ite_eq_iff] at h
  rcases h with ⟨hop, h⟩ | ⟨-, ⟨hop, h⟩ | ⟨-, ⟨hop, h⟩ | ⟨-, ⟨hop, h⟩ | ⟨-, ⟨hop, h⟩ | ⟨-, ⟨hop, h⟩ | ⟨-, ⟨hop, h⟩ |
    ⟨-, ⟨hop, h⟩ | ⟨-, ⟨hop, h⟩ | ⟨-, ⟨hop, h⟩ | ⟨-, ⟨hop, h⟩ | ⟨-, h⟩⟩⟩⟩⟩⟩⟩⟩⟩⟩⟩
  case inr.inr.inr.inr.inr.inr.inl =>
    obtain rfl := Decoded.command.inj h
    rw [Instr.fields, ← hop]
  · exact fields_of_decodeN hop h rfl
  · exact fields_of_decodeB hop h fun _ => rfl
  · exact fields_of_decodeN hop h rfl
  · exact fields_of_decodeB hop h fun _ => rfl
  · exact fields_of_decodeN hop h rfl
  · exact fields_of_decodeB hop h fun _ => rfl
  · exact fields_of_decodeB hop h fun _ => rfl
  · exact fields_of_decodeB hop h fun _ => rfl
  · exact fields_of_decodeN hop h rfl
  · exact fields_of_decodeN hop h rfl
  · cases h

/-- A word is the encoding of the command it decodes to (R47, R50). -/
theorem encode_of_decode {w : CmdWord} {i : Instr} (h : decode w = .command i) : encode i = w := by
  rw [encode, ← fields_of_decodeFields h, joinWord_splitWord]

end Sys2Proof
end

section
/-! PROOFS. What a command leaves alone (10_state.md R11), and the output buffer along a step (R18, R20, R22 item 6). -/

namespace Sys2Proof.Machine

open Sys2Proof.Safety

/-- Settles O21: a command that neither is ignored nor raises has its effect, which writes only its row. -/
theorem commandsWriteOnlyWhatR11Marks : Obligations.CommandsWriteOnlyWhatR11Marks := by
  intro i s t hs hx ht
  rcases exec_cases hx with ⟨hf, -⟩ | ⟨-, k, -, rfl⟩ | ⟨-, -, rfl⟩
  · exact absurd (hs.symm.trans hf) nofun
  · exact absurd ht nofun
  · cases i with
    | clr | rawb | crcinit | crcb | adlinit | adlb => rfl
    | begch | wrb | wrab | wradl | endch => simp [OnlyWrites, effectOf, State.emitCovered]

/-- The buffer after a command: emptied by `CLR`, else as it was with bytes written from the old cursor on. -/
theorem exec_obuf {i : Instr} {s t : State} (h : exec i s = .next t) :
    (i = .clr ∧ t.obuf = []) ∨ ∃ bs, t.obuf = Memory.writeSeq s.obuf s.olen.toNat bs := by
  rcases exec_cases h with ⟨-, rfl⟩ | ⟨-, k, -, rfl⟩ | ⟨-, hk, rfl⟩
  · exact .inr ⟨[], rfl⟩
  · exact .inr ⟨[], rfl⟩
  · by_cases hi : i = .clr
    · subst hi; exact .inl ⟨rfl, rfl⟩
    · exact .inr ⟨_, (effectOf_buffer hk hi).1⟩

/-- The buffer after a host event: emptied by the reset input or a `CLR`, else as it was with bytes written from the
old cursor on. -/
theorem EventEffect.obuf {e : HostEvent} {s t : State} (h : EventEffect s e t) :
    ((e = .rst ∨ ∃ w, e = .cmd w ∧ decode w = .command .clr) ∧ t.obuf = [])
      ∨ ∃ bs, t.obuf = Memory.writeSeq s.obuf s.olen.toNat bs := by
  cases h with
  | ran hd hx =>
    rcases exec_obuf hx with ⟨rfl, ht⟩ | hbs
    · exact .inl ⟨.inr ⟨_, rfl, hd⟩, ht⟩
    · exact .inr hbs
  | reset => exact .inl ⟨.inl rfl, rfl⟩
  | ignored | raised | status | buffer => exact .inr ⟨[], rfl⟩

/-- Settles O22: a step empties the buffer, or writes bytes into it, which keeps the canonical form. -/
theorem stepKeepsTheBufferCanonical : Obligations.StepKeepsTheBufferCanonical := by
  intro s t hwf hstep
  rcases step_cases hstep with ⟨-, rfl⟩ | ⟨e, rest, -, he⟩
  · exact hwf
  · rcases he.obuf with ⟨-, ht⟩ | ⟨bs, ht⟩
    · rw [ht]; rfl
    · rw [ht]; exact Memory.wf_writeSeq bs s.obuf s.olen.toNat hwf

/-- Settles O49: on a dense buffer bytes written from the cursor on come at its end, and only the reset input and the
one word that decodes to `CLR` empty it. -/
theorem outputOnlyGrows : Obligations.OutputOnlyGrows := by
  intro s t h hstep hrst hclr
  rcases step_cases hstep with ⟨-, rfl⟩ | ⟨e, rest, hp, he⟩
  · exact List.prefix_rfl
  · rw [hp, List.head?_cons] at hrst hclr
    rcases he.obuf with ⟨rfl | ⟨w, rfl, hd⟩, -⟩ | ⟨bs, ht⟩
    · exact absurd rfl hrst
    · have hw : w = 0x010000000000000000#72 := (encode_of_decode hd).symm.trans (by decide)
      exact absurd (by rw [hw]) hclr
    · rw [outputBytes, outputBytes, ht, (Memory.writeSeq_dense bs s.obuf s.olen.toNat h.dense).2]
      exact List.prefix_append _ _

end Sys2Proof.Machine
end

section
/-! PROOFS. CRC, S1 and S2 are never observed while their valid bit is 0 (10_state.md R13, R17, R21): states that differ
at most there answer every host event alike. -/

namespace Sys2Proof.Machine

/-- The state with other values in CRC, S1 and S2. -/
def State.withAccumulators (s : State) (c : Word) (a b : Half) : State := { s with crc := c, s1 := a, s2 := b }

/-- Appending does not look at the accumulators (R31). -/
theorem State.appendSeq_withAccumulators (bs : List Byte) (s : State) (c : Word) (a b : Half) :
    (s.withAccumulators c a b).appendSeq bs = (s.appendSeq bs).withAccumulators c a b := by
  induction bs generalizing s with
  | nil => rfl
  | cons b bs ih => exact ih (s.append b)

end Sys2Proof.Machine

namespace Sys2Proof.Safety

open Sys2Proof.Machine

theorem sameSpecified_iff {s t : State} :
    SameSpecified s t ↔ ∃ c a b, t = s.withAccumulators c a b ∧ (s.crcv = true → s.crc = c)
      ∧ (s.adlv = true → s.s1 = a ∧ s.s2 = b) := by
  constructor
  · rintro ⟨hc, ha, ht⟩
    exact ⟨t.crc, t.s1, t.s2, ht, hc, ha⟩
  · rintro ⟨c, a, b, rfl, hc, ha⟩
    exact ⟨hc, ha, rfl⟩

section Operations

variable {s t : State} (h : SameSpecified s t)
include h

theorem SameSpecified.fault_eq : t.fault = s.fault := by
  obtain ⟨c, a, b, rfl, -, -⟩ := sameSpecified_iff.1 h
  rfl

theorem SameSpecified.port_eq : t.port = s.port := by
  obtain ⟨c, a, b, rfl, -, -⟩ := sameSpecified_iff.1 h
  rfl

/-- No check of a command looks at CRC, S1 or S2. -/
theorem SameSpecified.checksOf_eq (i : Instr) : checksOf i t = checksOf i s := by
  obtain ⟨c, a, b, rfl, -, -⟩ := sameSpecified_iff.1 h
  cases i <;> rfl

/-- A status read shows the accumulators only where they are valid (R17). -/
theorem SameSpecified.statusValue_eq (n : BitVec 3) : t.statusValue n = s.statusValue n := by
  obtain ⟨c, a, b, rfl, hc, ha⟩ := sameSpecified_iff.1 h
  have h1 : (s.withAccumulators c a b).statusValue 1#3 = s.statusValue 1#3 := by
    cases hv : s.crcv
    · simp [State.withAccumulators, hv]
    · simp [State.withAccumulators, hv, hc hv]
  have h2 : (s.withAccumulators c a b).statusValue 2#3 = s.statusValue 2#3 := by
    cases hv : s.adlv
    · simp [State.withAccumulators, hv]
    · simp [State.withAccumulators, hv, ha hv]
  by_cases hn1 : n = 1#3
  · rw [hn1, h1]
  by_cases hn2 : n = 2#3
  · rw [hn2, h2]
  · simp only [State.statusValue, hn1, hn2, if_false]
    rfl

theorem SameSpecified.withPort (port : List HostEvent) :
    SameSpecified { s with port := port } { t with port := port } := by
  obtain ⟨c, a, b, rfl, hc, ha⟩ := sameSpecified_iff.1 h
  exact ⟨hc, ha, rfl⟩

theorem SameSpecified.raise (k : Cause) : SameSpecified (s.raise k) (t.raise k) := by
  obtain ⟨c, a, b, rfl, hc, ha⟩ := sameSpecified_iff.1 h
  exact ⟨hc, ha, rfl⟩

theorem SameSpecified.applyReset : SameSpecified s.applyReset t.applyReset := by
  obtain ⟨c, a, b, rfl, -, -⟩ := sameSpecified_iff.1 h
  exact ⟨nofun, nofun, rfl⟩

theorem SameSpecified.close : SameSpecified { s with chopen := false } { t with chopen := false } := by
  obtain ⟨c, a, b, rfl, hc, ha⟩ := sameSpecified_iff.1 h
  exact ⟨hc, ha, rfl⟩

theorem SameSpecified.appendSeq (bs : List Byte) : SameSpecified (s.appendSeq bs) (t.appendSeq bs) := by
  obtain ⟨c, a, b, rfl, hc, ha⟩ := sameSpecified_iff.1 h
  rw [State.appendSeq_withAccumulators]
  exact sameSpecified_iff.2 ⟨c, a, b, rfl, by simpa using hc, by simpa using ha⟩

theorem SameSpecified.emitCovered (bs : List Byte) : SameSpecified (s.emitCovered bs) (t.emitCovered bs) := by
  obtain ⟨c, a, b, rfl, hc, ha⟩ := sameSpecified_iff.1 h
  have heq : (s.withAccumulators c a b).emitCovered bs = (s.emitCovered bs).withAccumulators (crcFold c bs) a b := by
    rw [State.emitCovered, State.appendSeq_withAccumulators]; rfl
  rw [heq]
  refine sameSpecified_iff.2 ⟨_, a, b, rfl, fun hv => ?_, by simpa using ha⟩
  rw [State.emitCovered_crc, hc (by simpa using hv)]

theorem SameSpecified.foldAdler (b : Byte) : SameSpecified (s.foldAdler b) (t.foldAdler b) := by
  obtain ⟨c, a₁, a₂, rfl, hc, ha⟩ := sameSpecified_iff.1 h
  refine ⟨hc, fun hv => ?_, rfl⟩
  obtain ⟨rfl, rfl⟩ := ha hv
  exact ⟨rfl, rfl⟩

/-- A command whose checks pass reads CRC, S1 and S2 only where they are valid, or overwrites them. -/
theorem SameSpecified.of_effect {i : Instr} (hs : OpenChunkCounted s) (hk : firstRaised (checksOf i s) = none) :
    SameSpecified (effectOf i s) (effectOf i t) := by
  obtain ⟨hchunk, hneeds⟩ := accepted_of_checks hk hs
  obtain ⟨c, a₁, a₂, rfl, hc, ha⟩ := sameSpecified_iff.1 h
  cases i with
  | clr => exact ⟨hc, ha, rfl⟩
  | rawb b => exact h.appendSeq [b]
  | crcinit => exact ⟨fun _ => rfl, ha, rfl⟩
  | crcb b => exact ⟨fun hv => congrArg (crcStep · b) (hc hv), ha, rfl⟩
  | adlinit => exact ⟨hc, fun _ => ⟨rfl, rfl⟩, rfl⟩
  | adlb b => exact h.foldAdler b
  | begch tag len =>
    have hopened : SameSpecified
        { s with crc := crcFold crcInit (be32 tag), crcv := true, dlen := len, wcnt := 0#32, chopen := true }
        { s.withAccumulators c a₁ a₂ with
          crc := crcFold crcInit (be32 tag), crcv := true, dlen := len, wcnt := 0#32, chopen := true } :=
      ⟨fun _ => rfl, ha, rfl⟩
    exact hopened.appendSeq (be32 len ++ be32 tag)
  | wrb b => exact h.emitCovered [b]
  | wrab b => exact (h.foldAdler b).emitCovered [b]
  | wradl =>
    obtain ⟨rfl, rfl⟩ := ha hneeds.1
    exact h.emitCovered (be32 (combined s.s1 s.s2))
  | endch =>
    obtain rfl := hc (hs (by simpa [shutOut] using hchunk)).1
    exact h.close.appendSeq (be32 (~~~s.crc))

end Operations

/-- Two outcomes are the same stop, or next states that differ at most where a register holds no value. -/
inductive AnswersAlike : Host.Outcome State Fault Refusal → Host.Outcome State Fault Refusal → Prop where
  | next {s t : State} (h : SameSpecified s t) : AnswersAlike (.next s) (.next t)
  | fault (f : Fault) : AnswersAlike (.fault f) (.fault f)
  | refused (r : Refusal) : AnswersAlike (.refused r) (.refused r)

section Answers

variable {s t : State} (h : SameSpecified s t)
include h

theorem SameSpecified.command_alike {checks : List (Bool × Cause)} {ds dt : State}
    (hd : firstRaised checks = none → SameSpecified ds dt) :
    AnswersAlike (command s checks ds) (command t checks dt) := by
  cases hf : s.fault with
  | true =>
    rw [command_faulted hf, command_faulted (h.fault_eq.trans hf)]
    exact .next h
  | false =>
    have hft := h.fault_eq.trans hf
    cases hk : firstRaised checks with
    | some k =>
      rw [command_raises hf hk, command_raises hft hk]
      exact .next (h.raise k)
    | none =>
      rw [command_done hf hk, command_done hft hk]
      exact .next (hd hk)

theorem SameSpecified.exec_alike (hs : OpenChunkCounted s) (i : Instr) : AnswersAlike (exec i s) (exec i t) := by
  rw [exec_eq_command, exec_eq_command, h.checksOf_eq]
  exact h.command_alike fun hk => h.of_effect hs hk

theorem SameSpecified.statusRead_alike (n : BitVec 3) : AnswersAlike (statusRead n s) (statusRead n t) := by
  have hn := h.statusValue_eq n
  obtain ⟨c, a, b, rfl, hc, ha⟩ := sameSpecified_iff.1 h
  cases hv : s.statusValue n with
  | some v =>
    rw [statusRead_specified hv, statusRead_specified (hn.trans hv)]
    exact .next ⟨hc, ha, rfl⟩
  | none =>
    rw [statusRead_unspecified hv, statusRead_unspecified (hn.trans hv)]
    exact .next ⟨hc, ha, rfl⟩

theorem SameSpecified.bufferRead_alike (x : Offset) : AnswersAlike (bufferRead x s) (bufferRead x t) := by
  obtain ⟨c, a, b, rfl, hc, ha⟩ := sameSpecified_iff.1 h
  by_cases hx : x.toNat < s.olen.toNat
  · cases hm : Memory.read s.obuf x.toNat with
    | some v =>
      rw [bufferRead_byte hx hm, bufferRead_byte (s := s.withAccumulators c a b) hx hm]
      exact .next ⟨hc, ha, rfl⟩
    | none =>
      rw [bufferRead_hole hx hm, bufferRead_hole (s := s.withAccumulators c a b) hx hm]
      exact .fault _
  · rw [bufferRead_beyond hx, bufferRead_beyond (s := s.withAccumulators c a b) hx]
    exact .refused _

theorem SameSpecified.event_alike (hs : OpenChunkCounted s) (e : HostEvent) :
    AnswersAlike (takeHostEvent e s) (takeHostEvent e t) := by
  cases e with
  | cmd w =>
    simp only [takeHostEvent]
    cases hd : decode w with
    | command i =>
      rw [issue_command hd, issue_command hd]
      exact h.exec_alike hs i
    | illegal e =>
      rw [issue_illegal hd, issue_illegal hd]
      exact h.command_alike fun _ => h
  | rst => exact .next h.applyReset
  | statusRead n => exact h.statusRead_alike n
  | bufRead x => exact h.bufferRead_alike x

theorem SameSpecified.step_alike (hs : OpenChunkCounted s) : AnswersAlike (step s) (step t) := by
  cases hp : s.port with
  | nil =>
    rw [step_idle hp, step_idle (h.port_eq.trans hp)]
    exact .next h
  | cons e rest =>
    rw [step_event hp, step_event (h.port_eq.trans hp)]
    exact (h.withPort rest).event_alike hs e

end Answers

/-- Settles O50: the invariant that an open chunk has a valid CRC is what keeps CRC out of sight, and the checks of the
commands keep S1 and S2 out of sight. -/
theorem uninitialisedRegistersNeverMatter : Obligations.UninitialisedRegistersNeverMatter := by
  intro s t hinv h
  have halike := h.step_alike hinv.counted
  generalize step s = x, step t = y at halike
  cases halike with
  | next hn => exact ⟨fun s' hs => ⟨_, rfl, by injection hs with hs; exact hs ▸ hn⟩, nofun, nofun⟩
  | fault f => exact ⟨nofun, fun g hg => hg, nofun⟩
  | refused r => exact ⟨nofun, nofun, fun q hq => hq⟩

end Sys2Proof.Safety
end

section
/-! PROOFS. The output buffer under commands: the capacity check, where the emitted bytes stand and what is left alone
(20_memory.md R30 to R34, 60_exceptions.md R131, R134). -/

namespace Sys2Proof.Machine

open Sys2Proof.Safety

/-! ### The check a command raises -/

/-- The cause that is raised is that of a check which fails. -/
theorem mem_of_firstRaised {cs : List (Bool × Cause)} {k : Cause} (h : firstRaised cs = some k) : (true, k) ∈ cs := by
  induction cs with
  | nil => cases h
  | cons c cs ih =>
    obtain ⟨fails, j⟩ := c
    cases fails with
    | true =>
      obtain rfl : j = k := by simpa using h
      exact List.mem_cons_self
    | false => exact List.mem_cons_of_mem _ (ih (by simpa using h))

/-- Each check of a command that fails stands for a condition of the table of R131 that holds. -/
theorem faultCondition_of_check (i : Instr) (s : State) : ∀ c ∈ checksOf i s, c.1 = true → faultCondition c.2 i s := by
  cases i <;>
    simp [checksOf, faultCondition, bytesEmitted, State.lacksRoom_eq_true, State.lacksLength_eq_true, State.chunkFull]

/-- A command that raises does so for a condition of the table of R131 that holds. -/
theorem faultCondition_of_raised {i : Instr} {k : Cause} {s : State} (h : firstRaised (checksOf i s) = some k) :
    faultCondition k i s :=
  faultCondition_of_check i s (true, k) (mem_of_firstRaised h) rfl

/-- A command with a failing check raises the first such check's fault. -/
theorem exec_raises {i : Instr} {s : State} {k : Cause} (h : s.fault = false)
    (hk : firstRaised (checksOf i s) = some k) : exec i s = .next (s.raise k) := by
  rw [exec_eq_command]; exact command_raises h hk _

/-- A command after which FAULT = 0 has had its effect: its checks passed and it was not ignored. -/
theorem effect_of_unfaulted {i : Instr} {s t : State} (h : exec i s = .next t) (ht : t.fault = false) :
    firstRaised (checksOf i s) = none ∧ t = effectOf i s := by
  rcases exec_cases h with ⟨hf, rfl⟩ | ⟨-, k, -, rfl⟩ | ⟨-, hk, rfl⟩
  · exact absurd (hf.symm.trans ht) nofun
  · exact absurd ht nofun
  · exact ⟨hk, rfl⟩

/-- A command after which FAULT = 1 has left the buffer alone (R134, R135). -/
theorem obuf_of_faulted {i : Instr} {s t : State} (h : exec i s = .next t) (ht : t.fault = true) : t.obuf = s.obuf := by
  rcases exec_cases h with ⟨-, rfl⟩ | ⟨-, k, -, rfl⟩ | ⟨hf, -, rfl⟩
  · rfl
  · rfl
  · rw [(effectOf_frame i s).1] at ht
    exact absurd (hf.symm.trans ht) nofun

theorem ne_clr_of_emits {i : Instr} (h : 0 < bytesEmitted i) : i ≠ .clr := by
  rintro rfl
  exact Nat.lt_irrefl 0 h

/-! ### The statements about commands -/

/-- Settles O18: without room some check fails, so the command only raises; and where no check of a higher priority
fails it is the capacity check. -/
theorem capacityIsCheckedForAllBytes : Obligations.CapacityIsCheckedForAllBytes := by
  intro i s hs hi
  refine ⟨fun hfull => ?_, fun t hx ht => ?_⟩
  · cases hk : firstRaised (checksOf i s) with
    | none => exact absurd (room_of_checks hk hi) (Nat.not_le.2 hfull)
    | some k =>
      refine ⟨s.raise k, exec_raises hs hk, rfl, rfl, rfl, fun hno => ?_⟩
      have hcond := faultCondition_of_raised hk
      cases k with
      | illegal => exact hcond.elim
      | proto | uninit | len => exact absurd hcond (hno _ (by decide))
      | ovf => rfl
  · obtain ⟨hk, rfl⟩ := effect_of_unfaulted hx ht
    exact ⟨room_of_checks hk hi, effectOf_olen_toNat hk (ne_clr_of_emits hi)⟩

/-- Settles O19: the effect of a command that emits anything is to write its emission at the old cursor. -/
theorem emittedBytesStandInOrder : Obligations.EmittedBytesStandInOrder := by
  intro i s t _ hx ht k b hb
  obtain ⟨hk, rfl⟩ := effect_of_unfaulted hx ht
  have hi : i ≠ .clr := by rintro rfl; cases hb
  rw [(effectOf_buffer hk hi).1]
  exact Memory.read_writeSeq_get _ _ _ _ _ hb

/-- Settles O20: a command that faults or is ignored stores nothing, `CLR` empties the buffer, and every other command
writes its emission, whose length is the number of bytes it emits. -/
theorem commandsStoreOnlyAtTheCursor : Obligations.CommandsStoreOnlyAtTheCursor := by
  intro i s t hx
  refine ⟨fun hi a ha => ?_, ?_, fun ht a => by rw [obuf_of_faulted hx ht]⟩
  · cases ht : t.fault with
    | true => rw [obuf_of_faulted hx ht]
    | false =>
      obtain ⟨hk, rfl⟩ := effect_of_unfaulted hx ht
      rw [(effectOf_buffer hk hi).1]
      exact Memory.read_writeSeq_other _ _ _ _ (by rwa [emission_length])
  · rintro rfl - ht a
    obtain ⟨-, rfl⟩ := effect_of_unfaulted hx ht
    rfl

end Sys2Proof.Machine
end

section
/-! PROOFS. The readout port on a dense buffer, and the one way a step can stop (20_memory.md R36). -/

namespace Sys2Proof.Machine

open Sys2Proof.Safety

/-- On a dense buffer a read below OLEN answers the byte at that place of the output (R36). -/
theorem bufferRead_dense {a : Offset} {s : State} (hd : BufferDense s) (ha : a.toNat < s.olen.toNat) :
    ∃ b, (outputBytes s)[a.toNat]? = some b ∧ bufferRead a s = .next { s with rdData := some b } := by
  have hlen : a.toNat < (outputBytes s).length := by rwa [outputBytes_length hd]
  have hread : Memory.read s.obuf a.toNat = (outputBytes s)[a.toNat]? :=
    Memory.read_dense s.obuf 0 s.olen.toNat a.toNat (hd.trans List.range_eq_range') (Nat.zero_le _)
  have hb := List.getElem?_eq_getElem hlen
  exact ⟨_, hb, bufferRead_byte ha (hread.trans hb)⟩

/-- The register OLEN is its two halves, which status registers 6 and 5 show (R17). -/
theorem State.olen_eq_halves (s : State) : s.olen = s.olen.extractLsb' 32 32 ++ s.olen.extractLsb' 0 32 := by
  rw [BitVec.extractLsb'_append_extractLsb'_eq_extractLsb' (by rfl), BitVec.extractLsb'_eq_self]

/-- Settles O23. -/
theorem bufferReadReturnsTheAppendedByte : Obligations.BufferReadReturnsTheAppendedByte := by
  intro s a rest hp hd
  rw [step_event hp]
  refine ⟨fun ha => bufferRead_dense (s := { s with port := rest }) hd ha, fun ha => ?_,
    _, _, s.statusValue_5, s.statusValue_6, s.olen_eq_halves⟩
  exact bufferRead_beyond (s := { s with port := rest }) (Nat.not_lt.2 ha)

/-- Every command word, legal or not, answers a next state (R50). -/
theorem issue_answers (w : CmdWord) (s : State) : ∃ t, issue w s = .next t := by
  cases hd : decode w with
  | command i =>
    rw [issue_command hd, exec_eq_command]
    exact command_answers s _ _
  | illegal e =>
    rw [issue_illegal hd]
    exact command_answers s _ _

/-- On a dense buffer a host event answers a next state, or is a buffer read at or above OLEN and refused (R36). -/
theorem takeHostEvent_answers {s : State} (hd : BufferDense s) (e : HostEvent) :
    (∃ t, takeHostEvent e s = .next t)
      ∨ ∃ a, e = .bufRead a ∧ s.olen.toNat ≤ a.toNat ∧ takeHostEvent e s = .refused (.readBeyondOlen a) := by
  cases e with
  | cmd w => exact .inl (issue_answers w s)
  | rst => exact .inl ⟨_, rfl⟩
  | statusRead n =>
    obtain ⟨v, d, hv⟩ := statusRead_cases n s
    exact .inl ⟨_, hv⟩
  | bufRead a =>
    by_cases ha : a.toNat < s.olen.toNat
    · obtain ⟨b, -, hb⟩ := bufferRead_dense hd ha
      exact .inl ⟨_, hb⟩
    · exact .inr ⟨a, rfl, Nat.not_lt.1 ha, bufferRead_beyond ha⟩

/-- On a dense buffer a step answers a next state, or refuses a buffer read at or above OLEN (R36). -/
theorem step_answers {s : State} (hd : BufferDense s) :
    (∃ t, step s = .next t)
      ∨ ∃ a rest, s.port = .bufRead a :: rest ∧ s.olen.toNat ≤ a.toNat ∧ step s = .refused (.readBeyondOlen a) := by
  cases hp : s.port with
  | nil => exact .inl ⟨s, step_idle hp⟩
  | cons e rest =>
    rw [step_event hp]
    rcases takeHostEvent_answers (s := { s with port := rest }) hd e with ht | ⟨a, rfl, ha, hr⟩
    · exact .inl ht
    · exact .inr ⟨a, rest, rfl, ha, hr⟩

/-- Settles O51: the invariants make the buffer dense. -/
theorem onlyReadsBeyondOlenAreRefused : Obligations.OnlyReadsBeyondOlenAreRefused := by
  intro s h
  rcases step_answers h.dense with ⟨t, ht⟩ | ⟨a, rest, hp, ha, hr⟩
  · rw [ht]
    exact ⟨nofun, nofun⟩
  · rw [hr]
    exact ⟨nofun, fun r hr => ⟨a, rest, hp, ha, (Host.Outcome.refused.inj hr).symm⟩⟩

end Sys2Proof.Machine
end

section
/-! PROOFS. Decoding and encoding are inverse to each other, and a row of the opcode map covers exactly the words of its
command (30_encoding.md R46 to R50). -/

namespace Sys2Proof

/-! ### The word of a command decodes to it -/

/-- A format-B word gives its byte back (R48). -/
theorem decodeB_fieldsB (op b : Byte) (i : Byte → Instr) : decodeB (fieldsB op b) i = .command (i b) := by
  simp [decodeB, fieldsB]

/-- The fields of a command decode to it (R47 to R49). -/
theorem decodeFields_fields (i : Instr) : decodeFields i.fields = .command i := by
  cases i with
  | clr | crcinit | adlinit | begch | wradl | endch => rfl
  | rawb b | crcb b | adlb b | wrb b | wrab b => exact decodeB_fieldsB _ b _

theorem decode_encode (i : Instr) : decode (encode i) = .command i := by
  rw [decode, encode, splitWord_joinWord, decodeFields_fields]

/-- A word decodes to a command exactly when its fields are those of the command. -/
theorem decode_eq_command_iff {w : CmdWord} {i : Instr} : decode w = .command i ↔ splitWord w = i.fields :=
  ⟨fields_of_decodeFields, fun h => by rw [decode, h, decodeFields_fields]⟩

/-- Settles O1. -/
theorem decodeOfEncodeIsTheCommand : Obligations.DecodeOfEncodeIsTheCommand :=
  decode_encode

/-- Settles O2. -/
theorem decodedWordIsItsEncoding : Obligations.DecodedWordIsItsEncoding :=
  fun _ _ => encode_of_decode

/-! ### The opcode map (R49) -/

theorem joinWord_inj {c d : RawCommand} : joinWord c = joinWord d ↔ c = d :=
  ⟨fun h => by rw [← splitWord_joinWord c, h, splitWord_joinWord], congrArg joinWord⟩

/-- A mask that keeps the opcode matches a word exactly when its opcode is the row's and its masked operands are zero. -/
theorem and_mask_eq_iff (w : CmdWord) (op : Byte) (maskA maskB : Word) :
    w &&& joinWord ⟨0xFF#8, maskA, maskB⟩ = joinWord (fieldsN op)
      ↔ (splitWord w).op = op ∧ (splitWord w).a &&& maskA = 0#32 ∧ (splitWord w).b &&& maskB = 0#32 := by
  conv_lhs => rw [← joinWord_splitWord w, joinWord_and, joinWord_inj, fieldsN, RawCommand.mk.injEq]
  rw [show 0xFF#8 = BitVec.allOnes 8 from rfl, BitVec.and_allOnes]

/-- Masking away the low byte leaves zero exactly of a widened byte (R47). -/
theorem and_high_eq_zero_iff {v : Word} : v &&& 0xFFFFFF00#32 = 0#32 ↔ ∃ b : Byte, v = b.setWidth 32 := by
  constructor
  · intro h
    have hhigh := congrArg (BitVec.extractLsb' 8 24) h
    rw [BitVec.extractLsb'_and, show BitVec.extractLsb' 8 24 0xFFFFFF00#32 = BitVec.allOnes 24 from rfl,
      BitVec.and_allOnes] at hhigh
    exact ⟨_, eq_setWidth_of_high_zero hhigh⟩
  · rintro ⟨b, rfl⟩
    rw [show b.setWidth 32 = 0#24 ++ b from BitVec.setWidth_eq_append (by decide),
      show 0xFFFFFF00#32 = BitVec.allOnes 24 ++ 0#8 from rfl, BitVec.and_append, BitVec.zero_and, BitVec.and_zero]
    rfl

section Rows

variable (w : CmdWord) (op : Byte)

/-- The mask and match of a format-N row. -/
theorem and_maskN_eq_iff :
    w &&& 0xFFFFFFFFFFFFFFFFFF#72 = joinWord (fieldsN op) ↔ splitWord w = fieldsN op := by
  rw [show 0xFFFFFFFFFFFFFFFFFF#72 = BitVec.allOnes 72 from rfl, BitVec.and_allOnes, ← joinWord_inj, joinWord_splitWord]

/-- The mask and match of a format-B row. -/
theorem and_maskB_eq_iff :
    w &&& 0xFFFFFFFFFFFFFFFF00#72 = joinWord (fieldsN op) ↔ ∃ b, splitWord w = fieldsB op b := by
  refine (and_mask_eq_iff w op 0xFFFFFFFF#32 0xFFFFFF00#32).trans ?_
  rw [and_high_eq_zero_iff, show 0xFFFFFFFF#32 = BitVec.allOnes 32 from rfl, BitVec.and_allOnes]
  obtain ⟨op', a, b⟩ := splitWord w
  simp [fieldsB]

/-- The mask and match of the format-TL row. -/
theorem and_maskTL_eq_iff :
    w &&& 0xFF0000000000000000#72 = joinWord (fieldsN op) ↔ ∃ tag len, splitWord w = ⟨op, tag, len⟩ := by
  refine (and_mask_eq_iff w op 0#32 0#32).trans ?_
  obtain ⟨op', a, b⟩ := splitWord w
  simp

end Rows

/-- Whether some command has a property is asked of the eleven one by one (R45). -/
theorem Instr.exists_iff {P : Instr → Prop} :
    (∃ i, P i) ↔ P .clr ∨ (∃ b, P (.rawb b)) ∨ P .crcinit ∨ (∃ b, P (.crcb b)) ∨ P .adlinit ∨ (∃ b, P (.adlb b))
      ∨ (∃ tag len, P (.begch tag len)) ∨ (∃ b, P (.wrb b)) ∨ (∃ b, P (.wrab b)) ∨ P .wradl ∨ P .endch := by
  constructor
  · rintro ⟨i, h⟩
    cases i <;> grind
  · rintro (h | ⟨b, h⟩ | h | ⟨b, h⟩ | h | ⟨b, h⟩ | ⟨tag, len, h⟩ | ⟨b, h⟩ | ⟨b, h⟩ | h | h) <;> exact ⟨_, h⟩

/-- The mask and match of a row decide its command: only the command with the row's mnemonic is left, and the row's mask
is that of its format (R49). -/
theorem covers_iff_decode (w : CmdWord) :
    ∀ r ∈ opcodeMap, r.covers w ↔ ∃ i, decode w = .command i ∧ i.mnemonic = r.mnemonic := by
  simp only [opcodeMap, List.forall_mem_cons, decode_eq_command_iff, Instr.exists_iff, Instr.mnemonic, String.reduceEq,
    and_true, and_false, exists_and_right, or_self, or_false, false_or]
  exact ⟨and_maskN_eq_iff w 0x01#8, and_maskB_eq_iff w 0x02#8, and_maskN_eq_iff w 0x10#8, and_maskB_eq_iff w 0x11#8,
    and_maskN_eq_iff w 0x20#8, and_maskB_eq_iff w 0x21#8, and_maskTL_eq_iff w 0x30#8, and_maskB_eq_iff w 0x31#8,
    and_maskB_eq_iff w 0x32#8, and_maskN_eq_iff w 0x33#8, and_maskN_eq_iff w 0x34#8, nofun⟩

/-- No two rows have the same mnemonic (R49). -/
theorem row_eq_of_mnemonic : ∀ r ∈ opcodeMap, ∀ q ∈ opcodeMap, r.mnemonic = q.mnemonic → r = q := by
  decide

/-- Settles O3: two rows that cover a word have the mnemonic of the one command it decodes to. -/
theorem opcodeMapDecidesTheCommand : Obligations.OpcodeMapDecidesTheCommand := by
  refine ⟨covers_iff_decode, fun w r q hr hq hrw hqw => ?_⟩
  obtain ⟨i, hi, hri⟩ := (covers_iff_decode w r hr).1 hrw
  obtain ⟨j, hj, hqj⟩ := (covers_iff_decode w q hq).1 hqw
  obtain rfl : i = j := Decoded.command.inj (hi.symm.trans hj)
  exact row_eq_of_mnemonic r hr q hq (hri.symm.trans hqj)

end Sys2Proof
end

section
/-! PROOFS. Which words are illegal and what an illegal word does (30_encoding.md R50), sample words (R46 to R49) and
assembler lines (R52). -/

namespace Sys2Proof

/-- A check of must-be-zero bits makes a word illegal exactly when it fails (R47). -/
theorem ite_illegal_iff {p : Prop} [Decidable p] {i : Instr} {r : DecodeError} :
    (∃ e, (if p then Decoded.command i else .illegal r) = .illegal e) ↔ ¬ p := by
  by_cases h : p <;> simp [h]

section Formats

variable {c : RawCommand}

/-- A format-N word is illegal exactly when an operand bit is one (R47). -/
theorem decodeN_illegal_iff {i : Instr} : (∃ e, decodeN c i = .illegal e) ↔ c.a ≠ 0#32 ∨ c.b ≠ 0#32 := by
  rw [decodeN, ite_illegal_iff, not_and_or]

/-- A format-B word is illegal exactly when an operand bit above its byte is one (R47). -/
theorem decodeB_illegal_iff {i : Byte → Instr} :
    (∃ e, decodeB c i = .illegal e) ↔ c.a ≠ 0#32 ∨ c.b.extractLsb' 8 24 ≠ 0#24 := by
  rw [decodeB, ite_illegal_iff, not_and_or]

theorem decodeFields_formatN (h : c.op ∈ formatNOpcodes) : ∃ i, decodeFields c = decodeN c i := by
  obtain ⟨op, a, b⟩ := c
  simp only [formatNOpcodes, List.mem_cons, List.not_mem_nil, or_false] at h
  rcases h with rfl | rfl | rfl | rfl | rfl <;> exact ⟨_, rfl⟩

theorem decodeFields_formatB (h : c.op ∈ formatBOpcodes) : ∃ i, decodeFields c = decodeB c i := by
  obtain ⟨op, a, b⟩ := c
  simp only [formatBOpcodes, List.mem_cons, List.not_mem_nil, or_false] at h
  rcases h with rfl | rfl | rfl | rfl | rfl <;> exact ⟨_, rfl⟩

theorem decodeFields_formatTL (h : c.op = 0x30#8) : decodeFields c = .command (.begch c.a c.b) := by
  obtain ⟨op, a, b⟩ := c
  subst h
  rfl

theorem decodeFields_unassigned (hn : c.op ∉ formatNOpcodes) (hb : c.op ∉ formatBOpcodes) (ht : c.op ≠ 0x30#8) :
    decodeFields c = .illegal (.unassignedOpcode c.op) := by
  simp only [formatNOpcodes, formatBOpcodes, List.mem_cons, List.not_mem_nil, or_false, not_or] at hn hb
  simp [decodeFields, hn, hb, ht]

end Formats

/-- The opcodes that R50 lists are those of the three formats (R47). -/
theorem mem_opcodes_iff {op : Byte} :
    op ∈ [0x01#8, 0x02#8, 0x10#8, 0x11#8, 0x20#8, 0x21#8, 0x30#8, 0x31#8, 0x32#8, 0x33#8, 0x34#8]
      ↔ op ∈ formatNOpcodes ∨ op ∈ formatBOpcodes ∨ op = 0x30#8 := by
  simp only [formatNOpcodes, formatBOpcodes, List.mem_cons, List.not_mem_nil, or_false]
  tauto

theorem not_mem_formatB_of_mem_formatN : ∀ op ∈ formatNOpcodes, op ∉ formatBOpcodes := by decide

/-- The illegal field triples, by the format of the opcode (R50). -/
theorem decodeFields_illegal_iff (c : RawCommand) :
    (∃ e, decodeFields c = .illegal e) ↔
      c.op ∉ [0x01#8, 0x02#8, 0x10#8, 0x11#8, 0x20#8, 0x21#8, 0x30#8, 0x31#8, 0x32#8, 0x33#8, 0x34#8]
        ∨ (c.op ∈ formatNOpcodes ∧ (c.a ≠ 0#32 ∨ c.b ≠ 0#32))
        ∨ (c.op ∈ formatBOpcodes ∧ (c.a ≠ 0#32 ∨ c.b.extractLsb' 8 24 ≠ 0#24)) := by
  rw [mem_opcodes_iff]
  by_cases hN : c.op ∈ formatNOpcodes
  · obtain ⟨i, hi⟩ := decodeFields_formatN hN
    rw [hi, decodeN_illegal_iff]
    simp [hN, not_mem_formatB_of_mem_formatN _ hN]
  · by_cases hB : c.op ∈ formatBOpcodes
    · obtain ⟨i, hi⟩ := decodeFields_formatB hB
      rw [hi, decodeB_illegal_iff]
      simp [hN, hB]
    · by_cases hT : c.op = 0x30#8
      · simpa [decodeFields_formatTL hT, hN, hB] using hT
      · simp [decodeFields_unassigned hN hB hT, hN, hB, hT]

end Sys2Proof

namespace Sys2Proof.Machine

/-- An illegal word issued to an unfaulted block sets FAULT and CAUSE = 1 (R50, R131, R134). -/
theorem issue_illegal_unfaulted {w : CmdWord} {e : DecodeError} (hd : decode w = .illegal e) {s : State}
    (hs : s.fault = false) : issue w s = .next { s with fault := true, cause := 1#4 } :=
  (issue_illegal hd s).trans (command_raises (k := .illegal) hs rfl s)

/-- Settles O4: the fields decide which words are illegal, and an illegal word is a command whose one check fails. -/
theorem illegalWordsAreExactlyThoseOfR50 : Obligations.IllegalWordsAreExactlyThoseOfR50 := by
  intro w
  refine ⟨?_, ?_, fun ⟨e, hd⟩ s hs => issue_illegal_unfaulted hd hs⟩
  · cases decode w with
    | command i => exact .inl ⟨i, rfl⟩
    | illegal e => exact .inr ⟨e, rfl⟩
  · have hhigh : (w.extractLsb' 0 32).extractLsb' 8 24 = w.extractLsb' 8 24 :=
      BitVec.extractLsb'_extractLsb'_of_le (by decide)
    rw [← hhigh]
    exact decodeFields_illegal_iff (splitWord w)

/-- Settles O8. -/
theorem stepOfAnIllegalWordRaisesEIllegal : Obligations.StepOfAnIllegalWordRaisesEIllegal := by
  intro s w rest e hp hd hs
  rw [step_event hp]
  exact issue_illegal_unfaulted hd hs

/-- Settles O5. -/
theorem sampleWordsDecodeAsSpecified : Obligations.SampleWordsDecodeAsSpecified := by
  unfold Obligations.SampleWordsDecodeAsSpecified
  decide

/-- Settles O6. -/
theorem assemblerLinesEncodeAsSpecified : Obligations.AssemblerLinesEncodeAsSpecified := by
  unfold Obligations.AssemblerLinesEncodeAsSpecified
  decide

end Sys2Proof.Machine
end

section
/-! PROOFS. The running CRC: the step is eight bit steps (40_crc.md R60, R61), the fold (R62), `CRCINIT` and `CRCB` (R63,
R64), and what the CRC commands and the chunk commands leave in CRC (R65). -/

namespace Sys2Proof

/-- The word of a format-B command is its opcode, seven zero bytes and its operand (R46, R47). -/
theorem joinWord_fieldsB (op b : Byte) : joinWord (fieldsB op b) = op ++ 0#56 ++ b :=
  calc op ++ 0#32 ++ b.setWidth 32
    _ = op ++ 0#32 ++ (0#24 ++ b) := congrArg (op ++ 0#32 ++ ·) (BitVec.setWidth_eq_append (by decide))
    _ = op ++ 0#32 ++ 0#24 ++ b := BitVec.append_assoc.symm
    _ = op ++ 0#56 ++ b := congrArg (· ++ b) BitVec.append_assoc

end Sys2Proof

namespace Sys2Proof.Machine

/-! ### The step as eight bit steps (R60, R61) -/

/-- A bit step is linear: it shifts, and bit 0 decides whether the polynomial comes in. -/
theorem crcBitStep_xor (g h : Word) : crcBitStep (g ^^^ h) = crcBitStep g ^^^ crcBitStep h := by
  have hpoly : g >>> 1 ^^^ h >>> 1 = (g >>> 1 ^^^ h >>> 1) ^^^ (crcPoly ^^^ crcPoly) := by
    rw [BitVec.xor_self, BitVec.xor_zero]
  simp only [crcBitStep, BitVec.getLsbD_xor, BitVec.ushiftRight_xor_distrib]
  cases g.getLsbD 0 <;> cases h.getLsbD 0
  case false.false => rfl
  case false.true => exact BitVec.xor_assoc _ _ _
  case true.false => simp only [Bool.xor_false, if_true, Bool.false_eq_true, if_false]; ac_rfl
  case true.true => simp only [Bool.xor_self, if_true, Bool.false_eq_true, if_false]; rw [hpoly]; ac_rfl

theorem crcBitSteps_xor (k : Nat) (g h : Word) : crcBitSteps k (g ^^^ h) = crcBitSteps k g ^^^ crcBitSteps k h := by
  induction k generalizing g h with
  | zero => rfl
  | succ k ih => rw [crcBitSteps, crcBitStep_xor, ih]; rfl

/-- Bit steps that meet only zeros at bit 0 just shift. -/
theorem crcBitSteps_of_low_zero (k : Nat) (g : Word) (hg : ∀ j < k, g.getLsbD j = false) :
    crcBitSteps k g = g >>> k := by
  induction k generalizing g with
  | zero => rfl
  | succ k ih =>
    have hstep : crcBitStep g = g >>> 1 := by rw [crcBitStep, hg 0 k.succ_pos]; rfl
    have hlow : ∀ j < k, (g >>> 1).getLsbD j = false := fun j hj => by
      rw [BitVec.getLsbD_ushiftRight]
      exact hg (1 + j) (by omega)
    rw [crcBitSteps, hstep, ih _ hlow, ← BitVec.shiftRight_add, Nat.add_comm]

/-- A zero-extended byte has nothing above its eight bits. -/
theorem setWidth_ushiftRight_8 (b : Byte) : b.setWidth 32 >>> 8 = 0#32 := by
  apply BitVec.eq_of_toNat_eq
  rw [BitVec.toNat_ushiftRight, BitVec.toNat_setWidth_of_le (by decide), Nat.shiftRight_eq_div_pow]
  exact Nat.div_eq_of_lt b.isLt

/-- Eight bit steps: the lowest byte selects a table entry and the other bits shift, since `x` is its lowest byte plus a
word whose low eight bits are zero. -/
theorem crcBitSteps_8 (x : Word) : crcBitSteps 8 x = tbl (x.extractLsb' 0 8) ^^^ x >>> 8 := by
  have hlow : ∀ j < 8, ((x.extractLsb' 0 8).setWidth 32 ^^^ x).getLsbD j = false := fun j hj => by
    simp [hj, show j < 32 by omega]
  calc crcBitSteps 8 x
    _ = crcBitSteps 8 ((x.extractLsb' 0 8).setWidth 32 ^^^ ((x.extractLsb' 0 8).setWidth 32 ^^^ x)) := by
      rw [← BitVec.xor_assoc, BitVec.xor_self, BitVec.zero_xor]
    _ = tbl (x.extractLsb' 0 8) ^^^ ((x.extractLsb' 0 8).setWidth 32 ^^^ x) >>> 8 := by
      rw [crcBitSteps_xor, crcBitSteps_of_low_zero 8 _ hlow]; rfl
    _ = tbl (x.extractLsb' 0 8) ^^^ x >>> 8 := by
      rw [BitVec.ushiftRight_xor_distrib, setWidth_ushiftRight_8, BitVec.zero_xor]

/-- Settles O39: eight bit steps from `c ^ zext_32(b)`, whose bits above the lowest byte are those of `c`. -/
theorem crcStepIsEightBitSteps : Obligations.CrcStepIsEightBitSteps := by
  refine fun c b => ⟨rfl, ?_⟩
  rw [crcBitSteps_8, BitVec.ushiftRight_xor_distrib, setWidth_ushiftRight_8, BitVec.xor_zero]
  rfl

/-- Settles O40: the cut is `crcFold_append`, and the other clauses are the equations of the definitions. -/
theorem crcFoldCutsAnywhere : Obligations.CrcFoldCutsAnywhere :=
  ⟨fun _ => rfl, fun _ _ _ => rfl, crcFold_append, fun _ => rfl⟩

/-! ### `CRCINIT` and `CRCB` (R63, R64) -/

section CrcCommands

variable {s : State} (hs : s.fault = false) (hc : s.chopen = false)
include hs hc

theorem exec_crcinit_closed : exec .crcinit s = .next { s with crc := crcInit, crcv := true } :=
  exec_done hs (by simp [checksOf, hc])

theorem exec_crcb_closed (hv : s.crcv = true) (b : Byte) :
    exec (.crcb b) s = .next { s with crc := crcStep s.crc b } :=
  exec_done hs (by simp [checksOf, hc, hv])

/-- `CRCB` byte by byte folds the bytes into CRC and writes nothing else. -/
theorem execList_crcb_closed (hv : s.crcv = true) (bs : List Byte) :
    execList (bs.map .crcb) s = .next { s with crc := crcFold s.crc bs } := by
  induction bs generalizing s with
  | nil => rfl
  | cons b bs ih => rw [List.map_cons, execList_cons (exec_crcb_closed hs hc hv b)]; exact ih hs hc hv

end CrcCommands

/-- Settles O29. -/
theorem crcinitSetsAllOnes : Obligations.CrcinitSetsAllOnes :=
  ⟨decode_encode .crcinit, fun _ hs =>
    ⟨fun hc => exec_raises (k := .proto) hs (by simp [checksOf, hc]), exec_crcinit_closed hs⟩⟩

/-- Settles O30: the checks stand in the order of R64, the open chunk before the missing value. -/
theorem crcbFoldsOneByte : Obligations.CrcbFoldsOneByte := by
  refine fun b => ⟨?_, fun s hs => ⟨fun hc => ?_, fun hc hv => ?_, fun hc hv => exec_crcb_closed hs hc hv b⟩⟩
  · rw [show 0x1100000000000000#64 ++ b = encode (.crcb b) from (joinWord_fieldsB 0x11#8 b).symm, decode_encode]
  · exact exec_raises (k := .proto) hs (by simp [checksOf, hc])
  · exact exec_raises (k := .uninit) hs (by simp [checksOf, hc, hv])

/-! ### The fold that command lists leave in CRC (R65) -/

/-- A list that ends without a fault had the effect of its first command and ran on from there. -/
theorem execList_effectOf {i : Instr} {is : List Instr} {s t : State} (h : execList (i :: is) s = .next t)
    (ht : t.fault = false) : execList is (effectOf i s) = .next t := by
  obtain ⟨u, hu⟩ := command_answers s (checksOf i s) (effectOf i s)
  rw [← exec_eq_command] at hu
  rw [execList_cons hu] at h
  obtain ⟨-, rfl⟩ := effect_of_unfaulted hu (execList_not_faulted h ht)
  exact h

/-- `WRB` byte by byte, when it does not fault, folds the payload into CRC (R82). -/
theorem crc_of_execList_wrb {s t : State} {p : List Byte} (h : execList (p.map .wrb) s = .next t)
    (ht : t.fault = false) : t.crc = crcFold s.crc p := by
  induction p generalizing s with
  | nil => cases h; rfl
  | cons b p ih =>
    calc t.crc
      _ = crcFold (effectOf (.wrb b) s).crc p := ih (execList_effectOf h ht)
      _ = crcFold s.crc (b :: p) := by rw [effectOf, State.emitCovered_crc, ← crcFold_append]; rfl

/-- Settles O41: `CRCB` folds its bytes from the value of `CRCINIT`, and `WRB` the payload from the fold of the tag that
`BEGCH` leaves. -/
theorem crcCommandsComputeTheFold : Obligations.CrcCommandsComputeTheFold := by
  refine ⟨fun s bs hs hc => ⟨_, ?_, rfl, ?_⟩, fun s t tag len p h ht => ?_⟩
  · rw [execList_cons (exec_crcinit_closed hs hc)]
    exact execList_crcb_closed (s := { s with crc := crcInit, crcv := true }) hs hc rfl bs
  · rw [State.statusValue_1, if_pos rfl, crcOf, BitVec.not_not]; rfl
  · calc t.crc
      _ = crcFold (effectOf (.begch tag len) s).crc p := crc_of_execList_wrb (execList_effectOf h ht) ht
      _ = crcFold 0xFFFFFFFF#32 (be32 tag ++ p) := (crcFold_append _ _ _).symm

end Sys2Proof.Machine
end

section
/-! PROOFS. The matrix of R132: which faults a command can raise (60_exceptions.md R131 to R133). -/

namespace Sys2Proof.Machine

open Sys2Proof.Safety

/-- The checks of a command are for the causes its row of the matrix marks, in every state. -/
theorem checksOf_causes (i : Instr) (s : State) : (checksOf i s).map Prod.snd = raisable i := by
  cases i <;> rfl

/-- The codes number the causes in the order of their priority (R131, R133). -/
theorem Cause.priority_code (k : Cause) : priority[k.code.toNat - 1]? = some k := by
  cases k <;> rfl

theorem Cause.code_injective : Function.Injective Cause.code := fun j k h =>
  Option.some.inj (j.priority_code.symm.trans (h ▸ k.priority_code))

/-- A command that raises a cause raises one its row of the matrix marks. -/
theorem mem_raisable_of_raises {i : Instr} {k : Cause} {s : State} (hs : s.fault = false)
    (h : exec i s = .next (s.raise k)) : k ∈ raisable i := by
  rcases exec_cases h with ⟨hf, -⟩ | ⟨-, j, hj, he⟩ | ⟨-, -, he⟩
  · exact absurd (hs.symm.trans hf) nofun
  · obtain rfl : k = j := Cause.code_injective (congrArg State.cause he)
    rw [← checksOf_causes i s]
    exact List.mem_map_of_mem (mem_of_firstRaised hj)
  · have hf : true = (effectOf i s).fault := congrArg State.fault he
    rw [(effectOf_frame i s).1, hs] at hf
    exact absurd hf nofun

/-! ### A state for each mark of the matrix -/

/-- A block in an open chunk of a declared length, with the Adler pair valid or not. -/
def inChunk (adlv : Bool) (len : Word) : State :=
  { State.reset with chopen := true, crcv := true, adlv := adlv, dlen := len }

/-- The same block with no byte of capacity left. -/
def State.full (s : State) : State := { s with olen := s.obufCap }

/-- Each mark of the matrix has an unfaulted state in which the command raises that cause. -/
theorem exists_raises {i : Instr} {k : Cause} (h : k ∈ raisable i) :
    ∃ s : State, s.fault = false ∧ exec i s = .next (s.raise k) := by
  cases k with
  | illegal => cases i <;> simp [raisable] at h
  | proto =>
    cases i with
    | clr | rawb | crcinit | crcb | begch => exact ⟨inChunk false 0#32, rfl, rfl⟩
    | wrb | wrab | wradl | endch => exact ⟨State.reset, rfl, rfl⟩
    | adlinit | adlb => simp [raisable] at h
  | uninit =>
    cases i with
    | crcb | adlb => exact ⟨State.reset, rfl, rfl⟩
    | wrab | wradl => exact ⟨inChunk false 4#32, rfl, rfl⟩
    | clr | rawb | crcinit | adlinit | begch | wrb | endch => simp [raisable] at h
  | len =>
    cases i with
    | wrb | wrab | wradl => exact ⟨inChunk true 0#32, rfl, rfl⟩
    | endch => exact ⟨inChunk true 1#32, rfl, rfl⟩
    | clr | rawb | crcinit | crcb | adlinit | adlb | begch => simp [raisable] at h
  | ovf =>
    cases i with
    | rawb | begch => exact ⟨State.reset.full, rfl, rfl⟩
    | wrb | wrab | wradl => exact ⟨(inChunk true 4#32).full, rfl, rfl⟩
    | endch => exact ⟨(inChunk true 0#32).full, rfl, rfl⟩
    | clr | crcinit | crcb | adlinit | adlb => simp [raisable] at h

/-- Settles O16: a command raises only causes its checks are for, and each of them in some state. -/
theorem faultMatrixIsThatOfR132 : Obligations.FaultMatrixIsThatOfR132 :=
  fun _ _ => ⟨exists_raises, fun ⟨_, hs, h⟩ => mem_raisable_of_raises hs h⟩

end Sys2Proof.Machine
end

section
/-! PROOFS. The Adler pair: the step over the naturals (41_adler.md R70), the closed form of the fold and the combined
value (R71), `ADLINIT` and `ADLB` (R72, R73), and what the Adler commands and `WRAB` leave in the pair (R74). -/

namespace Sys2Proof.Machine

/-! ### The step over the naturals (R70) -/

/-- The new first half: it fits its register, so nothing is lost in storing it. -/
theorem adlerStep_fst_toNat (p : Half × Half) (b : Byte) :
    (adlerStep p b).1.toNat = (p.1.toNat + b.toNat) % adlerMod := by
  simp only [adlerStep, adlerMod, BitVec.toNat_ofNat]
  omega

/-- The new second half adds the new first one. -/
theorem adlerStep_snd_toNat (p : Half × Half) (b : Byte) :
    (adlerStep p b).2.toNat = (p.2.toNat + (adlerStep p b).1.toNat) % adlerMod := by
  rw [adlerStep_fst_toNat]
  simp only [adlerStep, adlerMod, BitVec.toNat_ofNat]
  omega

/-- Settles O42: the two equations of the step, and `adlerStep_lt` for the ranges. -/
theorem adlerStepStaysInRange : Obligations.AdlerStepStaysInRange := by
  intro s1 s2 b h1 h2
  obtain ⟨hlt1, hlt2⟩ := adlerStep_lt (s1, s2) b
  have hb := b.isLt
  exact ⟨adlerStep_fst_toNat _ _, adlerStep_snd_toNat _ _, by omega, by omega, hlt1, hlt2⟩

/-! ### The closed form of the fold (R71) -/

/-- Folding keeps a pair in range. -/
theorem adlerFold_lt {p : Half × Half} (hp : p.1.toNat < 65521 ∧ p.2.toNat < 65521) (bs : List Byte) :
    (adlerFold p bs).1.toNat < 65521 ∧ (adlerFold p bs).2.toNat < 65521 := by
  induction bs generalizing p with
  | nil => exact hp
  | cons b bs ih => exact ih (adlerStep_lt p b)

/-- The second half's share of the bytes: byte `k` of `n` counts `n - k` times, once at its own step and once at each
later one (R71). -/
def weightedSum (bs : List Byte) : Nat :=
  ((List.range bs.length).map fun k => (bs.length - k) * (bs.getD k 0#8).toNat).sum

/-- A byte in front counts once for each byte of the longer sequence, and the others count as before. -/
theorem weightedSum_cons (b : Byte) (bs : List Byte) :
    weightedSum (b :: bs) = (bs.length + 1) * b.toNat + weightedSum bs := by
  simp [weightedSum, List.range_succ_eq_map, Function.comp_def]

theorem adlerStep_fst_modEq (p : Half × Half) (b : Byte) :
    (adlerStep p b).1.toNat ≡ p.1.toNat + b.toNat [MOD adlerMod] := by
  rw [adlerStep_fst_toNat]
  exact Nat.mod_modEq _ _

theorem adlerStep_snd_modEq (p : Half × Half) (b : Byte) :
    (adlerStep p b).2.toNat ≡ p.2.toNat + (p.1.toNat + b.toNat) [MOD adlerMod] := by
  rw [adlerStep_snd_toNat]
  exact (Nat.mod_modEq _ _).trans ((adlerStep_fst_modEq p b).add_left _)

/-- The first half is a plain sum modulo 65521, from any pair. -/
theorem adlerFold_fst_modEq (p : Half × Half) (bs : List Byte) :
    (adlerFold p bs).1.toNat ≡ p.1.toNat + (bs.map BitVec.toNat).sum [MOD adlerMod] := by
  induction bs generalizing p with
  | nil => rfl
  | cons b bs ih =>
    calc (adlerFold (adlerStep p b) bs).1.toNat
      _ ≡ (adlerStep p b).1.toNat + (bs.map BitVec.toNat).sum [MOD adlerMod] := ih _
      _ ≡ p.1.toNat + b.toNat + (bs.map BitVec.toNat).sum [MOD adlerMod] := (adlerStep_fst_modEq p b).add_right _
      _ = p.1.toNat + ((b :: bs).map BitVec.toNat).sum := by rw [List.map_cons, List.sum_cons, Nat.add_assoc]

/-- The second half modulo 65521, from any pair: each step adds the first half the fold began with and every byte up to
its own. -/
theorem adlerFold_snd_modEq (p : Half × Half) (bs : List Byte) :
    (adlerFold p bs).2.toNat ≡ p.2.toNat + bs.length * p.1.toNat + weightedSum bs [MOD adlerMod] := by
  induction bs generalizing p with
  | nil => simp [adlerFold, weightedSum, Nat.ModEq]
  | cons b bs ih =>
    calc (adlerFold (adlerStep p b) bs).2.toNat
      _ ≡ (adlerStep p b).2.toNat + bs.length * (adlerStep p b).1.toNat + weightedSum bs [MOD adlerMod] := ih _
      _ ≡ p.2.toNat + (p.1.toNat + b.toNat) + bs.length * (p.1.toNat + b.toNat) + weightedSum bs [MOD adlerMod] :=
        ((adlerStep_snd_modEq p b).add ((adlerStep_fst_modEq p b).mul_left _)).add_right _
      _ = p.2.toNat + (b :: bs).length * p.1.toNat + weightedSum (b :: bs) := by
        rw [weightedSum_cons, List.length_cons]
        ring

/-- The halves of the combined value do not overlap (R71). -/
theorem combined_toNat (s1 s2 : Half) : (combined s1 s2).toNat = s2.toNat * 65536 + s1.toNat := by
  have hshift : (s2.setWidth 32 <<< 16).toNat = s2.toNat <<< 16 := by
    have := s2.isLt
    simp only [BitVec.toNat_shiftLeft, BitVec.toNat_setWidth, Nat.shiftLeft_eq]
    omega
  rw [combined, BitVec.toNat_or, hshift, BitVec.toNat_setWidth_of_le (by decide),
    ← Nat.shiftLeft_add_eq_or_of_lt s1.isLt, Nat.shiftLeft_eq]

/-- Settles O43: the fold from (1, 0) is in range, so it is the residue of the sums it is congruent to. -/
theorem adlerFoldClosedForm : Obligations.AdlerFoldClosedForm := by
  refine ⟨fun _ => rfl, fun _ _ _ => rfl, fun s => ?_, combined_toNat, fun _ => rfl, by decide⟩
  obtain ⟨hlt1, hlt2⟩ := adlerFold_lt adlerInit_lt s
  have hsnd : (adlerFold adlerInit s).2.toNat ≡ s.length + weightedSum s [MOD adlerMod] := by
    simpa [adlerInit] using adlerFold_snd_modEq adlerInit s
  exact ⟨(Nat.mod_eq_of_modEq (adlerFold_fst_modEq adlerInit s).symm hlt1).symm,
    (Nat.mod_eq_of_modEq hsnd.symm hlt2).symm⟩

/-! ### `ADLINIT` and `ADLB` (R72, R73) -/

section AdlerCommands

variable {s : State} (hs : s.fault = false)
include hs

theorem exec_adlinit : exec .adlinit s = .next { s with s1 := 1#16, s2 := 0#16, adlv := true } :=
  exec_done hs rfl

theorem exec_adlb_valid (hv : s.adlv = true) (b : Byte) : exec (.adlb b) s = .next (s.foldAdler b) :=
  exec_done hs (by simp [checksOf, hv])

/-- `ADLB` byte by byte folds the bytes into the pair and writes nothing else. -/
theorem execList_adlb_valid (hv : s.adlv = true) (bs : List Byte) :
    execList (bs.map .adlb) s
      = .next { s with s1 := (adlerFold (s.s1, s.s2) bs).1, s2 := (adlerFold (s.s1, s.s2) bs).2 } := by
  induction bs generalizing s with
  | nil => rfl
  | cons b bs ih => rw [List.map_cons, execList_cons (exec_adlb_valid hs hv b)]; exact ih hs hv

end AdlerCommands

/-- Settles O31. -/
theorem adlinitSetsOneAndZero : Obligations.AdlinitSetsOneAndZero :=
  ⟨decode_encode .adlinit, fun _ hs => exec_adlinit hs⟩

/-- Settles O32: the one check of `ADLB` is for the missing value. -/
theorem adlbFoldsOneByte : Obligations.AdlbFoldsOneByte := by
  refine fun b => ⟨?_, fun s hs => ⟨fun hv => ?_, fun hv => exec_adlb_valid hs hv b⟩⟩
  · rw [show 0x2100000000000000#64 ++ b = encode (.adlb b) from (joinWord_fieldsB 0x21#8 b).symm, decode_encode]
  · exact exec_raises (k := .uninit) hs (by simp [checksOf, hv])

/-! ### The pair that the commands leave (R74) -/

/-- `WRAB` passes its checks only with a valid pair (R84). -/
theorem adlv_of_wrab_checks {b : Byte} {s : State} (h : firstRaised (checksOf (.wrab b) s) = none) : s.adlv = true := by
  simpa [Safety.faultCondition] using (checks_pass_iff (.wrab b) s).1 h .uninit

/-- Settles O44: `ADLB` folds its bytes from the pair of `ADLINIT`; a `WRAB` that does not fault found a valid pair, so
`ADLB` from the same state folds the same byte into it. -/
theorem adlerCommandsComputeTheFold : Obligations.AdlerCommandsComputeTheFold := by
  refine ⟨fun s bs hs => ?_, fun s t u b hs hwrab ht hadlb => ?_⟩
  · rw [execList_cons (exec_adlinit hs)]
    exact execList_adlb_valid (s := { s with s1 := 1#16, s2 := 0#16, adlv := true }) hs rfl bs
  · obtain ⟨hk, rfl⟩ := effect_of_unfaulted hwrab ht
    obtain rfl := Host.Outcome.next.inj ((exec_adlb_valid hs (adlv_of_wrab_checks hk) b).symm.trans hadlb)
    simp [effectOf]

end Sys2Proof.Machine
end

section
/-! PROOFS. The buffer and chunk commands, each by its checks in order and its effect (42_framer.md R80 to R86), and the
table of which command is accepted in which chunk state (R87). -/

namespace Sys2Proof

/-- A format-B command decodes from its opcode, seven zero bytes and its operand (R46, R47). -/
theorem decode_formatB {i : Instr} {op b : Byte} (h : i.fields = fieldsB op b) :
    decode (op ++ 0#56 ++ b) = .command i := by
  rw [← joinWord_fieldsB, ← h]
  exact decode_encode i

end Sys2Proof

namespace Sys2Proof.Machine

open Sys2Proof.Safety

/-- Emission into the open chunk at one stroke, with room for the bytes (R31, R82). -/
theorem State.emitCovered_eq (bs : List Byte) (s : State) (hroom : s.olen.toNat + bs.length ≤ s.obufCap.toNat) :
    s.emitCovered bs = { s with
      obuf := Memory.writeSeq s.obuf s.olen.toNat bs, olen := s.olen + BitVec.ofNat 64 bs.length
      crc := crcFold s.crc bs, wcnt := s.wcnt + BitVec.ofNat 32 bs.length } := by
  rw [State.emitCovered, State.appendSeq_eq bs s (s.noWrap _ hroom)]

/-! ### The commands one by one (R80 to R86) -/

/-- Settles O27. -/
theorem clrDiscardsTheOutputBuffer : Obligations.ClrDiscardsTheOutputBuffer :=
  ⟨decode_encode .clr, fun _ hs =>
    ⟨fun hc => exec_raises (k := .proto) hs (by simp [checksOf, hc]), fun hc => exec_done hs (by simp [checksOf, hc])⟩⟩

/-- Settles O28. -/
theorem rawbAppendsOneUncoveredByte : Obligations.RawbAppendsOneUncoveredByte := by
  refine fun b => ⟨decode_formatB (op := 0x02#8) rfl, fun s hs => ⟨fun hc => ?_, fun hc hfull => ?_, fun hc hroom => ?_⟩⟩
  · exact exec_raises (k := .proto) hs (by simp [checksOf, hc])
  · exact exec_raises (k := .ovf) hs (by simp [checksOf, hc, (s.lacksRoom_eq_true 1).2 hfull])
  · exact exec_done hs (by simp [checksOf, hc, (s.lacksRoom_eq_false 1).2 hroom])

/-- Settles O33: the eight bytes are appended at one stroke, since with room the cursor does not wrap. -/
theorem begchOpensAChunk : Obligations.BegchOpensAChunk := by
  refine fun tag len => ⟨decode_encode (.begch tag len), fun s hs =>
    ⟨fun hc => ?_, fun hc hfull => ?_, fun hc hroom => ?_⟩⟩
  · exact exec_raises (k := .proto) hs (by simp [checksOf, hc])
  · exact exec_raises (k := .ovf) hs (by simp [checksOf, hc, (s.lacksRoom_eq_true 8).2 hfull])
  · rw [exec_done hs (by simp [checksOf, hc, (s.lacksRoom_eq_false 8).2 hroom]), effectOf,
      State.appendSeq_eq (be32 len ++ be32 tag) s (s.noWrap 8 hroom)]
    rfl

/-- `WRB` below the declared length, with room (R82). -/
theorem exec_wrb_below {s : State} (hs : s.fault = false) (hc : s.chopen = true) (hlen : s.wcnt ≠ s.dlen)
    (hroom : s.olen.toNat + 1 ≤ s.obufCap.toNat) (b : Byte) : exec (.wrb b) s = .next (s.emitCovered [b]) :=
  exec_done hs (by simp [checksOf, hc, s.chunkFull_eq_false.2 hlen, (s.lacksRoom_eq_false 1).2 hroom])

/-- Settles O34. -/
theorem wrbAppendsAndFolds : Obligations.WrbAppendsAndFolds := by
  refine fun b => ⟨decode_formatB (op := 0x31#8) rfl, fun s hs =>
    ⟨fun hc => ?_, fun hc hfull => ?_, fun hc hlen hfull => ?_, fun hc hlen hroom => ?_⟩⟩
  · exact exec_raises (k := .proto) hs (by simp [checksOf, hc])
  · exact exec_raises (k := .len) hs (by simp [checksOf, hc, s.chunkFull_eq_true.2 hfull])
  · exact exec_raises (k := .ovf) hs
      (by simp [checksOf, hc, s.chunkFull_eq_false.2 hlen, (s.lacksRoom_eq_true 1).2 hfull])
  · exact exec_wrb_below hs hc hlen hroom b

/-- Settles O35. -/
theorem wrabFoldsBothAndAppends : Obligations.WrabFoldsBothAndAppends := by
  refine fun b => ⟨decode_formatB (op := 0x32#8) rfl, fun s hs =>
    ⟨fun hc => ?_, fun hc hv => ?_, fun hc hv hfull => ?_, fun hc hv hlen hfull => ?_, fun hc hv hlen hroom => ?_⟩⟩
  · exact exec_raises (k := .proto) hs (by simp [checksOf, hc])
  · exact exec_raises (k := .uninit) hs (by simp [checksOf, hc, hv])
  · exact exec_raises (k := .len) hs (by simp [checksOf, hc, hv, s.chunkFull_eq_true.2 hfull])
  · exact exec_raises (k := .ovf) hs
      (by simp [checksOf, hc, hv, s.chunkFull_eq_false.2 hlen, (s.lacksRoom_eq_true 1).2 hfull])
  · exact exec_done hs (by simp [checksOf, hc, hv, s.chunkFull_eq_false.2 hlen, (s.lacksRoom_eq_false 1).2 hroom])

/-- Settles O36: the bytes of the combined value are those of the halves, S2 first. -/
theorem wradlWritesTheCombinedValue : Obligations.WradlWritesTheCombinedValue := by
  refine ⟨decode_encode .wradl, fun s hs =>
    ⟨fun hc => ?_, fun hc hv => ?_, fun hc hv hover => ?_, fun hc hv hlen hfull => ?_, fun hc hv hlen hroom => ?_⟩⟩
  · exact exec_raises (k := .proto) hs (by simp [checksOf, hc])
  · exact exec_raises (k := .uninit) hs (by simp [checksOf, hc, hv])
  · exact exec_raises (k := .len) hs (by simp [checksOf, hc, hv, (s.lacksLength_eq_true 4).2 hover])
  · exact exec_raises (k := .ovf) hs
      (by simp [checksOf, hc, hv, (s.lacksLength_eq_false 4).2 hlen, (s.lacksRoom_eq_true 4).2 hfull])
  · rw [exec_done hs (by simp [checksOf, hc, hv, (s.lacksLength_eq_false 4).2 hlen, (s.lacksRoom_eq_false 4).2 hroom]),
      effectOf, State.emitCovered_eq (be32 (combined s.s1 s.s2)) s hroom, be32_combined]
    rfl

/-- Settles O37. -/
theorem endchAppendsTheComplementAndCloses : Obligations.EndchAppendsTheComplementAndCloses := by
  refine ⟨decode_encode .endch, fun s hs =>
    ⟨fun hc => ?_, fun hc hlen => ?_, fun hc hw hfull => ?_, fun hc hw hroom => ?_⟩⟩
  · exact exec_raises (k := .proto) hs (by simp [checksOf, hc])
  · exact exec_raises (k := .len) hs (by simp [checksOf, hc, s.chunkFull_eq_false.2 hlen])
  · exact exec_raises (k := .ovf) hs
      (by simp [checksOf, hc, s.chunkFull_eq_true.2 hw, (s.lacksRoom_eq_true 4).2 hfull])
  · rw [exec_done hs (by simp [checksOf, hc, s.chunkFull_eq_true.2 hw, (s.lacksRoom_eq_false 4).2 hroom]), effectOf,
      State.appendSeq_eq (be32 (~~~s.crc)) s (s.noWrap 4 hroom)]
    rfl

/-! ### The table of R87 -/

/-- A command that the table shuts out raises `E_PROTO`: the chunk state is its first check. -/
theorem exec_of_shutOut {i : Instr} {s : State} (hs : s.fault = false) (h : shutOut i s.chopen = true) :
    exec i s = .next (s.raise .proto) :=
  exec_raises hs (by cases i <;> simp_all [shutOut, checksOf])

/-- The condition for `E_PROTO` is that the table shuts the command out. -/
theorem faultCondition_proto_iff (i : Instr) (s : State) : faultCondition .proto i s ↔ shutOut i s.chopen = true := by
  cases i <;> simp [faultCondition, shutOut]

/-- The conditions for `E_UNINIT` and `E_LEN` are denials of what the table says the command needs. -/
theorem not_needs_of_faultCondition {i : Instr} {k : Cause} {s : State} (hk : k = .uninit ∨ k = .len)
    (h : faultCondition k i s) : ¬ needs i s := by
  rcases hk with rfl | rfl
  · cases i <;> simp_all [faultCondition, needs]
  · cases i <;> simp_all [faultCondition, needs]

/-- Settles O17: an accepted command with room raises for a missing need or not at all, according to its first failing
check. -/
theorem protocolTableIsThatOfR87 : Obligations.ProtocolTableIsThatOfR87 := by
  refine fun i s hs => ⟨exec_of_shutOut hs, fun hopen hcount hroom => ?_⟩
  cases hk : firstRaised (checksOf i s) with
  | none =>
    have hf : (effectOf i s).fault = false := (effectOf_frame i s).1.trans hs
    exact ⟨effectOf i s, exec_done hs hk, iff_of_true hf (accepted_of_checks hk hcount).2,
      fun h => absurd (hf.symm.trans h) nofun, fun _ => by cases i <;> simp [effectOf]⟩
  | some k =>
    have hcond := faultCondition_of_raised hk
    have hlack : k = .uninit ∨ k = .len := by
      cases k with
      | illegal => exact hcond.elim
      | proto => exact absurd (hopen.symm.trans ((faultCondition_proto_iff i s).1 hcond)) nofun
      | uninit => exact .inl rfl
      | len => exact .inr rfl
      | ovf => exact absurd hcond.2 (Nat.not_lt.2 (hroom hcond.1))
    have hcode : k.code ≠ 2#4 := by rcases hlack with rfl | rfl <;> decide
    exact ⟨s.raise k, exec_raises hs hk, iff_of_false nofun (not_needs_of_faultCondition hlack hcond), fun _ => hcode,
      nofun⟩

/-! ### Commands that amount to others (R84, R85) -/

/-- A command ends without a fault exactly when it found none, its checks passed and this is its effect. -/
theorem exec_iff_of_unfaulted {i : Instr} {s t : State} (ht : t.fault = false) :
    exec i s = .next t ↔ s.fault = false ∧ firstRaised (checksOf i s) = none ∧ effectOf i s = t := by
  constructor
  · intro h
    obtain ⟨hk, rfl⟩ := effect_of_unfaulted h ht
    exact ⟨(effectOf_frame i s).1.symm.trans ht, hk, rfl⟩
  · rintro ⟨hs, hk, rfl⟩
    exact exec_done hs hk

/-- A list ends without a fault exactly when its first command completes and the rest does so after its effect. -/
theorem execList_cons_iff_of_unfaulted {i : Instr} {is : List Instr} {s t : State} (ht : t.fault = false) :
    execList (i :: is) s = .next t
      ↔ s.fault = false ∧ firstRaised (checksOf i s) = none ∧ execList is (effectOf i s) = .next t := by
  constructor
  · intro h
    refine ⟨execList_not_faulted h ht, ?_, execList_effectOf h ht⟩
    obtain ⟨u, hu⟩ := command_answers s (checksOf i s) (effectOf i s)
    rw [← exec_eq_command] at hu
    rw [execList_cons hu] at h
    exact (effect_of_unfaulted hu (execList_not_faulted h ht)).1
  · rintro ⟨hs, hk, h⟩
    rwa [execList_cons (exec_done hs hk)]

/-- The checks of `WRAB` are those of `ADLB` and, after its effect, those of `WRB`. -/
theorem wrab_checks_iff (b : Byte) (s : State) :
    firstRaised (checksOf (.wrab b) s) = none
      ↔ firstRaised (checksOf (.adlb b) s) = none ∧ firstRaised (checksOf (.wrb b) (s.foldAdler b)) = none := by
  simp only [firstRaised_eq_none]
  simp [checksOf, State.chunkFull, State.lacksRoom, and_left_comm]

/-- Settles O45: both sides ask for the same checks and have the same effect. -/
theorem wrabIsAdlbThenWrb : Obligations.WrabIsAdlbThenWrb := by
  intro s t b ht
  rw [exec_iff_of_unfaulted ht, execList_cons_iff_of_unfaulted ht, execList_cons_iff_of_unfaulted ht, wrab_checks_iff]
  constructor
  · rintro ⟨hs, ⟨hadlb, hwrb⟩, rfl⟩
    exact ⟨hs, hadlb, hs, hwrb, rfl⟩
  · rintro ⟨hs, hadlb, -, hwrb, h⟩
    exact ⟨hs, ⟨hadlb, hwrb⟩, Host.Outcome.next.inj h⟩

/-- Appending neither reads nor writes CRC and WCNT. -/
theorem State.appendSeq_withCounted (bs : List Byte) (s : State) (c w : Word) :
    State.appendSeq bs { s with crc := c, wcnt := w } = { s.appendSeq bs with crc := c, wcnt := w } := by
  induction bs generalizing s with
  | nil => rfl
  | cons b bs ih => exact ih (s.append b)

@[simp] theorem State.emitCovered_nil (s : State) : s.emitCovered [] = s := by
  simp [State.emitCovered, State.appendSeq, crcFold]

/-- Emitting a byte and then the others is emitting them all. -/
theorem State.emitCovered_cons (b : Byte) (bs : List Byte) (s : State) :
    (s.emitCovered [b]).emitCovered bs = s.emitCovered (b :: bs) := by
  have hw : s.wcnt + 1#32 + BitVec.ofNat 32 bs.length = s.wcnt + BitVec.ofNat 32 (b :: bs).length := by
    rw [List.length_cons, Nat.add_comm, BitVec.ofNat_add, BitVec.add_assoc]
  calc (s.emitCovered [b]).emitCovered bs
    _ = { s.appendSeq (b :: bs) with crc := crcFold s.crc (b :: bs), wcnt := s.wcnt + 1#32 + BitVec.ofNat 32 bs.length } :=
      congrArg (fun u : State => { u with
        crc := crcFold s.crc (b :: bs), wcnt := s.wcnt + 1#32 + BitVec.ofNat 32 bs.length })
        (State.appendSeq_withCounted bs (s.append b) _ _)
    _ = s.emitCovered (b :: bs) := by rw [hw]; rfl

/-- `WRB` byte by byte, within the declared length and with room, emits the bytes (R82). -/
theorem execList_wrSeq {s : State} {bs : List Byte} (hs : s.fault = false) (hc : s.chopen = true)
    (hlen : s.wcnt.toNat + bs.length ≤ s.dlen.toNat) (hroom : s.olen.toNat + bs.length ≤ s.obufCap.toNat) :
    execList (wrSeq bs) s = .next (s.emitCovered bs) := by
  induction bs generalizing s with
  | nil => rw [State.emitCovered_nil]; rfl
  | cons b bs ih =>
    rw [List.length_cons] at hlen hroom
    have hne : s.wcnt ≠ s.dlen := fun he => by rw [he] at hlen; omega
    have hroom1 : s.olen.toNat + 1 ≤ s.obufCap.toNat := by omega
    have hwcnt : (s.emitCovered [b]).wcnt.toNat = s.wcnt.toNat + 1 := by
      have := s.dlen.isLt
      simp only [State.emitCovered_wcnt, BitVec.toNat_add, BitVec.toNat_ofNat, List.length_singleton]
      omega
    have holen : (s.emitCovered [b]).olen.toNat = s.olen.toNat + 1 := State.appendSeq_olen_toNat [b] s (s.noWrap 1 hroom1)
    rw [wrSeq, List.map_cons, ← State.emitCovered_cons b bs s, execList_cons (exec_wrb_below hs hc hne hroom1 b)]
    exact ih (s := s.emitCovered [b]) hs hc (by rw [hwcnt, State.emitCovered_dlen]; omega)
      (by rw [holen, State.emitCovered_obufCap]; omega)

/-- Settles O46: `WRADL` emits four bytes, for which its checks found declared length and room. -/
theorem wradlIsFourWrb : Obligations.WradlIsFourWrb := by
  intro s t ht h
  obtain ⟨hs, hk, rfl⟩ := (exec_iff_of_unfaulted ht).1 h
  obtain ⟨hc, -, hlen, hroom⟩ : s.chopen = true ∧ s.adlv = true ∧ s.wcnt.toNat + 4 ≤ s.dlen.toNat
      ∧ s.olen.toNat + 4 ≤ s.obufCap.toNat := by
    rw [firstRaised_eq_none] at hk
    simpa [checksOf, State.lacksLength_eq_false, State.lacksRoom_eq_false] using hk
  rw [effectOf, be32_combined]
  exact execList_wrSeq (bs := [_, _, _, _]) hs hc hlen hroom

end Sys2Proof.Machine
end

section
/-! PROOFS. The host sequence of a whole chunk: it appends the chunk's bytes and never disagrees with its declared length
(43_host_sequences.md R104, R105). -/

namespace Sys2Proof.Machine

open Sys2Proof.Safety

/-! ### The bytes of a chunk -/

/-- The length field of a chunk holds the payload's length (R105). -/
theorem declaredLength_toNat {p : List Byte} (hp : p.length < 2 ^ 32) : (BitVec.ofNat 32 p.length).toNat = p.length := by
  rw [BitVec.toNat_ofNat, Nat.mod_eq_of_lt hp]

/-- The bytes of a payload written into an open chunk, within the declared length and with room (R82, R104). -/
theorem Opened.wrSeq {cap : Offset} {before p : List Byte} {tag len : Word} {pair : Option (Half × Half)} {s : State}
    (h : Opened cap before tag len p pair s) (q : List Byte) (hlen : p.length + q.length ≤ len.toNat)
    (hroom : before.length + 8 + p.length + q.length ≤ cap.toNat) :
    ∃ t, execList (wrSeq q) s = .next t ∧ Opened cap before tag len (p ++ q) pair t := by
  induction q generalizing p s with
  | nil => exact ⟨s, rfl, by rwa [List.append_nil]⟩
  | cons b q ih =>
    rw [List.length_cons] at hlen hroom
    obtain ⟨u, hu, hopen⟩ := h.wrb b (by omega) (by omega)
    obtain ⟨t, ht, hdone⟩ := ih hopen (by simp; omega) (by simp; omega)
    exact ⟨t, by rwa [Machine.wrSeq, List.map_cons, execList_cons hu], by simpa using hdone⟩

/-- `CHUNK tag, p` outside a chunk, with room for its `12 + n` bytes, appends them (R105). -/
theorem Idle.chunkSeq {cap : Offset} {out : List Byte} {s : State} (h : Idle cap out s) (tag : Word) {p : List Byte}
    (hp : p.length < 2 ^ 32) (hroom : out.length + 12 + p.length ≤ cap.toNat) :
    ∃ t, execList (chunkSeq tag p) s = .next t ∧ Idle cap (out ++ chunkBytes tag p) t := by
  have hlen := declaredLength_toNat hp
  obtain ⟨u, hu, hbegun⟩ := h.begch tag (BitVec.ofNat 32 p.length) (by omega)
  obtain ⟨v, hv, hwritten⟩ := hbegun.wrSeq p (by simp [hlen]) (by simp; omega)
  obtain ⟨t, ht, hended⟩ := hwritten.endch hlen.symm (by simp; omega)
  refine ⟨t, ?_, hended⟩
  rw [Machine.chunkSeq, List.append_assoc, List.singleton_append, execList_cons hu, execList_append hv, execList_cons ht,
    execList_nil]

/-! ### The cause a list does not end with -/

/-- No run of the list from this state ends with this cause. -/
def NeverEndsWith (k : Cause) (is : List Instr) (s : State) : Prop := ∀ t, execList is s = .next t → t.cause ≠ k.code

theorem NeverEndsWith.nil {k : Cause} {s : State} (hs : s.cause ≠ k.code) : NeverEndsWith k [] s := by
  rintro t ⟨⟩
  exact hs

/-- A command whose condition for the cause does not hold is ignored, raises another cause, which the rest keeps, or has
its effect. -/
theorem NeverEndsWith.cons {k : Cause} {i : Instr} {is : List Instr} {s : State} (hs : s.cause ≠ k.code)
    (hi : ¬ faultCondition k i s) (hrest : NeverEndsWith k is (effectOf i s)) : NeverEndsWith k (i :: is) s := by
  intro t h
  obtain ⟨u, hu⟩ := command_answers s (checksOf i s) (effectOf i s)
  rw [← exec_eq_command] at hu
  rw [execList_cons hu] at h
  rcases exec_cases hu with ⟨hf, rfl⟩ | ⟨-, j, hj, rfl⟩ | ⟨-, -, rfl⟩
  · rw [execList_faulted is hf] at h
    cases h
    exact hs
  · rw [execList_faulted is rfl] at h
    cases h
    exact fun he => hi (Cause.code_injective he ▸ faultCondition_of_raised hj)
  · exact hrest t h

/-- Writing exactly the payload that the declared length still allows, and ending the chunk, never raises `E_LEN`. -/
theorem neverEndsWith_len_payload {s : State} {p : List Byte} (hs : s.cause ≠ 4#4)
    (hcount : s.wcnt.toNat + p.length = s.dlen.toNat) : NeverEndsWith .len (wrSeq p ++ [.endch]) s := by
  induction p generalizing s with
  | nil =>
    have hw : s.wcnt = s.dlen := BitVec.eq_of_toNat_eq hcount
    exact .cons hs (not_not.2 hw) (.nil (by rwa [(effectOf_frame _ s).2.1]))
  | cons b p ih =>
    rw [List.length_cons] at hcount
    have hne : s.wcnt ≠ s.dlen := fun he => by rw [he] at hcount; omega
    refine .cons hs hne (ih hs ?_)
    have := s.dlen.isLt
    simp only [effectOf, State.emitCovered_wcnt, State.emitCovered_dlen, BitVec.toNat_add, BitVec.toNat_ofNat,
      List.length_singleton]
    omega

/-- Settles O53: `BEGCH` declares exactly the payload that is then written; with room the three parts of the sequence
complete. -/
theorem chunkSequenceAppendsItsBytes : Obligations.ChunkSequenceAppendsItsBytes := by
  intro s tag p hinv hs hc hp
  refine ⟨?_, fun hroom => ?_⟩
  · have hcause : s.cause ≠ 4#4 := by rw [hinv.cause.1 hs]; decide
    refine NeverEndsWith.cons hcause id (neverEndsWith_len_payload ?_ ?_)
    · rwa [(effectOf_frame _ s).2.1]
    · exact (Nat.zero_add _).trans (declaredLength_toNat hp).symm
  · have hidle : Idle s.obufCap (outputBytes s) s := ⟨hinv.dense, hs, hc, rfl, rfl⟩
    obtain ⟨t, ht, hdone⟩ := hidle.chunkSeq tag hp (by rw [outputBytes_length hinv.dense]; exact hroom)
    exact ⟨t, ht, hdone.fault, hdone.closed, hdone.out⟩

end Sys2Proof.Machine
end

section
/-! PROOFS. The output of a whole command list: single bytes and complete chunks (42_framer.md R88). What a command stands
for is cut out of `segments` command by command, and the framer's state follows it. -/

namespace Sys2Proof.Safety

open Sys2Proof.Machine

/-! ### What one command contributes to the segments of a list (R88) -/

/-- The piece of output that a command completes. -/
def segmentsOf (opened : Option (Word × Word × List Byte)) : Instr → List Segment
  | .rawb b => [.raw b]
  | .endch => opened.toList.map fun (t, n, p) => .chunk t n p
  | _ => []

/-- The pair (S1, S2) after a command. -/
def pairAfter (pair : Half × Half) : Instr → Half × Half
  | .wrab b | .adlb b => adlerStep pair b
  | .adlinit => adlerInit
  | _ => pair

/-- The open chunk after a command: its tag, declared length and payload so far. -/
def openedAfter (pair : Half × Half) (opened : Option (Word × Word × List Byte)) :
    Instr → Option (Word × Word × List Byte)
  | .begch tag len => some (tag, len, [])
  | .wrb b | .wrab b => opened.map fun (t, n, p) => (t, n, p ++ [b])
  | .wradl => opened.map fun (t, n, p) => (t, n, p ++ be32 (combined pair.1 pair.2))
  | .endch => none
  | _ => opened

theorem segments_cons (pair : Half × Half) (opened : Option (Word × Word × List Byte)) (i : Instr) (is : List Instr) :
    segments pair opened (i :: is)
      = segmentsOf opened i ++ segments (pairAfter pair i) (openedAfter pair opened i) is := by
  cases i with
  | endch => cases opened <;> rfl
  | _ => rfl

/-- A command's effect on the pair. -/
theorem effectOf_pair (i : Instr) (s : State) :
    ((effectOf i s).s1, (effectOf i s).s2) = pairAfter (s.s1, s.s2) i := by
  cases i <;> simp [effectOf, pairAfter]

end Sys2Proof.Safety

namespace Sys2Proof.Machine

open Sys2Proof.Safety

/-! ### The framer's state along a command list -/

/-- A command answers one state only. -/
theorem holds_of_exec {P : State → Prop} {i : Instr} {s u : State} (h : ∃ t, exec i s = .next t ∧ P t)
    (hx : exec i s = .next u) : P u := by
  obtain ⟨t, ht, hp⟩ := h
  cases ht.symm.trans hx
  exact hp

/-- The state between two commands of a list: the output of the segments complete so far, and the chunk open, if any. -/
def Framed (cap : Offset) (out : List Byte) : Option (Word × Word × List Byte) → State → Prop
  | none => Idle cap out
  | some (tag, len, p) => Opened cap out tag len p none

section Framed

variable {cap : Offset} {out before p : List Byte} {tag len : Word} {pair : Option (Half × Half)}
  {opened : Option (Word × Word × List Byte)} {i : Instr} {is : List Instr} {s t u : State}

/-- A command that completes no segment leaves the output of the segments as it is. -/
theorem Framed.silent (h : Framed cap out opened s) :
    Framed cap (out ++ ([] : List Segment).flatMap Segment.bytes) opened s := by
  rwa [List.flatMap_nil, List.append_nil]

/-- A pair that is valid may be named. -/
theorem Opened.withPair (h : Opened cap before tag len p none s) (hv : s.adlv = true) :
    Opened cap before tag len p (some (s.s1, s.s2)) s :=
  { h with adler := fun _ hq => ⟨hv, Option.some.inj hq⟩ }

theorem Opened.withoutPair (h : Opened cap before tag len p pair s) : Opened cap before tag len p none s :=
  { h with adler := nofun }

theorem Idle.olen (h : Idle cap out s) : s.olen.toNat = out.length := by
  rw [← outputBytes_length h.dense, h.out]

theorem Opened.olen (h : Opened cap before tag len p pair s) : s.olen.toNat = before.length + 8 + p.length := by
  rw [← outputBytes_length h.dense, h.out]
  simp [be32]
  omega

/-- At the declared length the payload so far is as long as declared. -/
theorem Opened.length_of_full (h : Opened cap before tag len p pair s) (hw : s.wcnt = s.dlen) :
    p.length = len.toNat := by
  rw [← h.counted, hw, h.declared]

/-- Outside a chunk a command that completes appends a byte, opens a chunk or leaves the output alone. -/
theorem Idle.framed_exec (h : Idle cap out s) (hinv : Inv s) (hi : i ≠ .clr) (hx : exec i s = .next u)
    (hu : u.fault = false) :
    Framed cap (out ++ (segmentsOf none i).flatMap Segment.bytes) (openedAfter (s.s1, s.s2) none i) u := by
  obtain ⟨hk, rfl⟩ := effect_of_unfaulted hx hu
  have hchunk := (accepted_of_checks hk hinv.counted).1
  have hroom := room_of_checks hk
  rw [h.olen, h.cap] at hroom
  cases i with
  | clr => exact absurd rfl hi
  | rawb b => exact holds_of_exec (h.rawb b (hroom Nat.one_pos)) hx
  | begch tag len => exact .silent (holds_of_exec (h.begch tag len (hroom (Nat.succ_pos 7))) hx)
  | crcinit | crcb | adlinit | adlb => exact .silent ⟨h.dense, h.fault, h.closed, h.out, h.cap⟩
  | wrb | wrab | wradl | endch => simp [shutOut, h.closed] at hchunk

/-- Inside a chunk a command that completes adds to the payload, closes the chunk or leaves it alone. -/
theorem Opened.framed_exec (h : Opened cap out tag len p none s) (hinv : Inv s) (hx : exec i s = .next u)
    (hu : u.fault = false) :
    Framed cap (out ++ (segmentsOf (some (tag, len, p)) i).flatMap Segment.bytes)
      (openedAfter (s.s1, s.s2) (some (tag, len, p)) i) u := by
  obtain ⟨hk, rfl⟩ := effect_of_unfaulted hx hu
  obtain ⟨hchunk, hneeds⟩ := accepted_of_checks hk hinv.counted
  have hroom := room_of_checks hk
  rw [h.olen, h.cap] at hroom
  cases i with
  | clr | rawb | crcinit | crcb | begch => simp [shutOut, h.opened] at hchunk
  | adlinit => exact .silent ((holds_of_exec h.adlinit hx).withoutPair)
  | adlb b => exact .silent ⟨h.dense, h.fault, h.opened, h.out, h.cap, h.declared, h.counted, h.crc, nofun⟩
  | wrb b =>
    rw [needs, h.counted, h.declared] at hneeds
    exact .silent (holds_of_exec (h.wrb b hneeds (hroom Nat.one_pos)) hx)
  | wrab b =>
    rw [needs, h.counted, h.declared] at hneeds
    exact .silent ((holds_of_exec ((h.withPair hneeds.1).wrab b hneeds.2 (hroom Nat.one_pos)) hx).withoutPair)
  | wradl =>
    rw [needs, h.counted, h.declared] at hneeds
    exact .silent ((holds_of_exec ((h.withPair hneeds.1).wradl hneeds.2 (hroom (Nat.succ_pos 3))) hx).withoutPair)
  | endch =>
    rw [segmentsOf, Option.toList_some, List.map_singleton, List.flatMap_singleton]
    exact holds_of_exec (h.endch (h.length_of_full hneeds) (hroom (Nat.succ_pos 3))) hx

/-- A chunk that a command completes has the payload its length field declares. -/
theorem Framed.lengthAgrees (h : Framed cap out opened s) (hneeds : needs i s) :
    ∀ g ∈ segmentsOf opened i, g.lengthAgrees := by
  cases i with
  | rawb b => simp [segmentsOf, Segment.lengthAgrees]
  | endch =>
    cases opened with
    | none => simp [segmentsOf]
    | some c => simpa [segmentsOf, Segment.lengthAgrees] using Opened.length_of_full h hneeds
  | _ => nofun

/-- One command of a list that does not fault: the output grows by the piece it completes, if any. -/
theorem Framed.after_exec (h : Framed cap out opened s) (hinv : Inv s) (hi : i ≠ .clr) (hx : exec i s = .next u)
    (hu : u.fault = false) :
    Framed cap (out ++ (segmentsOf opened i).flatMap Segment.bytes) (openedAfter (s.s1, s.s2) opened i) u :=
  match opened with
  | none => Idle.framed_exec h hinv hi hx hu
  | some _ => Opened.framed_exec h hinv hx hu

/-- A whole list, from any state of the framer to one outside a chunk. -/
theorem Framed.after_execList (h : Framed cap out opened s) (hinv : Inv s) (hclr : .clr ∉ is)
    (hx : execList is s = .next t) (ht : t.fault = false) (hc : t.chopen = false) :
    outputBytes t = out ++ (segments (s.s1, s.s2) opened is).flatMap Segment.bytes
      ∧ ∀ g ∈ segments (s.s1, s.s2) opened is, g.lengthAgrees := by
  induction is generalizing s out opened with
  | nil =>
    cases hx
    cases opened with
    | none => exact ⟨by simp [segments, Idle.out h], by simp [segments]⟩
    | some c => exact absurd (hc.symm.trans (Opened.opened h)) nofun
  | cons i is ih =>
    obtain ⟨hi, his⟩ := List.ne_and_not_mem_of_not_mem_cons hclr
    obtain ⟨hs, hk, hrest⟩ := (execList_cons_iff_of_unfaulted ht).1 hx
    have hnext := h.after_exec hinv hi.symm (exec_done hs hk) ((effectOf_frame i s).1.trans hs)
    have hfirst := h.lengthAgrees (accepted_of_checks hk hinv.counted).2
    obtain ⟨hout, hagree⟩ := ih hnext (hinv.of_effect hk) his hrest
    rw [effectOf_pair] at hout hagree
    rw [segments_cons, List.flatMap_append, ← List.append_assoc]
    exact ⟨hout, fun g hg => (List.mem_append.1 hg).elim (hfirst g) (hagree g)⟩

end Framed

/-- Settles O52: the list starts outside a chunk, where nothing is open. -/
theorem everyChunkIsWellFormed : Obligations.EveryChunkIsWellFormed := by
  intro s t is hinv hc hclr hx ht htc
  have hidle : Framed s.obufCap (outputBytes s) none s := ⟨hinv.dense, execList_not_faulted hx ht, hc, rfl, rfl⟩
  exact hidle.after_execList hinv hclr hx ht htc

end Sys2Proof.Machine
end

section
/-! PROOFS. What the host sequences are made of: how many bytes each part of a file has, and how many commands write it
(43_host_sequences.md R104 to R113). -/

namespace Sys2Proof.Machine

open Sys2Proof.Safety

/-! ### What the host establishes (R106, R114) -/

theorem Image.mayStart_iff (img : Image) : img.mayStart = true ↔
    0 < img.width ∧ 0 < img.height ∧ 1 + img.width * img.mode.bppSer ≤ 65535 ∧ img.idatLength ≤ 2 ^ 32 - 1
      ∧ img.palette.length ≤ 256 ∧ img.rows.length = img.height ∧ ∀ r ∈ img.rows, r.length = img.width := by
  simp [Image.mayStart, and_assoc]

theorem Image.idatLength_lt {img : Image} (h : img.mayStart = true) : img.idatLength < 2 ^ 32 := by
  obtain ⟨-, -, -, hlen, -⟩ := img.mayStart_iff.1 h
  omega

theorem Image.palette_length_le {img : Image} (h : img.mayStart = true) : img.palette.length ≤ 256 := by
  obtain ⟨-, -, -, -, hpal, -⟩ := img.mayStart_iff.1 h
  exact hpal

theorem Image.rows_length {img : Image} (h : img.mayStart = true) : img.rows.length = img.height := by
  obtain ⟨-, -, -, -, -, hrows, -⟩ := img.mayStart_iff.1 h
  exact hrows

theorem Image.row_length {img : Image} (h : img.mayStart = true) : ∀ r ∈ img.rows, r.length = img.width := by
  obtain ⟨-, -, -, -, -, -, hrow⟩ := img.mayStart_iff.1 h
  exact hrow

/-! ### The bytes of each part -/

@[simp] theorem be32_length (v : Word) : (be32 v).length = 4 := rfl

@[simp] theorem signature_length : signature.length = 8 := rfl

@[simp] theorem pixelBytes_length (mode : ColorMode) (c : Word) : (pixelBytes mode c).length = mode.bppSer := by
  cases mode <;> rfl

@[simp] theorem rowBytes_length (mode : ColorMode) (pixels : List Word) :
    (rowBytes mode pixels).length = pixels.length * mode.bppSer := by
  simp [rowBytes, List.length_flatMap]

/-- The five bytes of a record header, which the Adler pair does not cover (R107). -/
def recordHeader (final : Bool) (r : List Byte) : List Byte :=
  [recordFlag final] ++ le16 (recordLen r) ++ le16 (recordLen r ^^^ 0xFFFF#16)

@[simp] theorem recordHeader_length (final : Bool) (r : List Byte) : (recordHeader final r).length = 5 := rfl

/-- A record is its header, the filter byte and the row (R107). -/
theorem recordBytes_eq (final : Bool) (r : List Byte) : recordBytes final r = recordHeader final r ++ 0x00#8 :: r := rfl

@[simp] theorem recordBytes_length (final : Bool) (r : List Byte) : (recordBytes final r).length = 6 + r.length := by
  simp [recordBytes_eq]
  omega

@[simp] theorem chunkBytes_length (tag : Word) (p : List Byte) : (chunkBytes tag p).length = 12 + p.length := by
  simp [chunkBytes]
  omega

@[simp] theorem ihdrPayload_length (img : Image) : (ihdrPayload img).length = 13 := rfl

@[simp] theorem paddedPalette_length (entries : List Word) :
    (paddedPalette entries).length = max entries.length 16 := by
  simp [paddedPalette]
  omega

@[simp] theorem paletteBytes_length (entries : List Word) :
    (paletteBytes entries).length = 3 * max entries.length 16 := by
  rw [paletteBytes, ← rowBytes, rowBytes_length, paddedPalette_length, Nat.mul_comm]
  rfl

@[simp] theorem alphaBytes_length (entries : List Word) : (alphaBytes entries).length = max entries.length 16 := by
  simp [alphaBytes]

/-! ### Row by row: the final flag is that of the row with none after it (R109) -/

theorem recordsBytes_cons (mode : ColorMode) (r : List Word) (rows : List (List Word)) :
    recordsBytes mode (r :: rows) = recordBytes rows.isEmpty (rowBytes mode r) ++ recordsBytes mode rows := by
  cases rows with
  | nil => exact (List.append_nil _).symm
  | cons q rows => rfl

theorem storedRows_cons (mode : ColorMode) (r : List Word) (rows : List (List Word)) :
    storedRows mode (r :: rows) = storedRow rows.isEmpty (rowBytes mode r) ++ storedRows mode rows := by
  cases rows with
  | nil => exact (List.append_nil _).symm
  | cons q rows => rfl

theorem recordsBytes_length {mode : ColorMode} {rows : List (List Word)} {w : Nat} (h : ∀ r ∈ rows, r.length = w) :
    (recordsBytes mode rows).length = rows.length * (5 + 1 + w * mode.bppSer) := by
  induction rows with
  | nil => simp [recordsBytes]
  | cons r rows ih =>
    obtain ⟨hr, hrows⟩ := List.forall_mem_cons.1 h
    rw [recordsBytes_cons, List.length_append, ih hrows, recordBytes_length, rowBytes_length, hr, List.length_cons,
      Nat.succ_mul, Nat.add_comm]

theorem idatPayload_length (hdr : Byte × Byte) {img : Image} (h : img.mayStart = true) :
    (idatPayload hdr img).length = img.idatLength := by
  simp [idatPayload, recordsBytes_length (Image.row_length h), Image.rows_length h, Image.idatLength, idatLen]
  omega

/-- Settles O54: the rows are as many and as wide as the image declares. -/
theorem imageDataPayloadHasTheDeclaredLength : Obligations.ImageDataPayloadHasTheDeclaredLength :=
  fun hdr _ h => idatPayload_length hdr h

theorem fileBytes_length (hdr : Byte × Byte) {img : Image} (h : img.mayStart = true) :
    (fileBytes hdr img).length = img.fileLength := by
  rw [fileBytes, Image.fileLength, Image.paletteLength]
  split <;> simp [idatPayload_length hdr h] <;> omega

/-! ### Undoing the stored-block framing (R115) -/

theorem stripRecords_recordsBytes {mode : ColorMode} {rows : List (List Word)} {w : Nat}
    (h : ∀ r ∈ rows, r.length = w) (tail : List Byte) :
    stripRecords rows.length (1 + w * mode.bppSer) (recordsBytes mode rows ++ tail)
      = rows.map (fun r => 0x00#8 :: rowBytes mode r) := by
  induction rows with
  | nil => rfl
  | cons r rows ih =>
    obtain ⟨hr, hrows⟩ := List.forall_mem_cons.1 h
    have hlen : (0x00#8 :: rowBytes mode r).length = 1 + w * mode.bppSer := by simp [hr, Nat.add_comm]
    rw [recordsBytes_cons, recordBytes_eq, List.append_assoc, List.append_assoc, List.length_cons, stripRecords,
      ← List.drop_drop, List.drop_left' (recordHeader_length _ _), List.take_left' hlen, List.drop_left' hlen, ih hrows,
      List.map_cons]

/-- Settles O57: the records stand behind the two header bytes, and the checksum behind the records. -/
theorem imageDataStripsToTheScanlines : Obligations.ImageDataStripsToTheScanlines := by
  intro hdr img h
  constructor
  · rw [← Image.rows_length h]
    exact stripRecords_recordsBytes (Image.row_length h) _
  · rw [idatPayload, List.length_append, be32_length, Nat.add_sub_cancel, List.drop_left]
    rfl

/-! ### The commands of each part (R104 to R112) -/

@[simp] theorem chunkSeq_length (tag : Word) (p : List Byte) : (chunkSeq tag p).length = 2 + p.length := by
  simp [chunkSeq, wrSeq]
  omega

/-- `IHDR` is the chunk sequence of its payload (R105, R110). -/
theorem ihdrSeq_eq_chunkSeq (img : Image) : ihdrSeq img = chunkSeq tagHdr (ihdrPayload img) := rfl

/-- `STOREDROW` writes the header with `WRB`, the filter byte and the row with `WRAB` (R107). -/
theorem storedRow_eq (final : Bool) (r : List Byte) :
    storedRow final r = wrSeq (recordHeader final r) ++ wraSeq (0x00#8 :: r) := rfl

@[simp] theorem storedRow_length (final : Bool) (r : List Byte) :
    (storedRow final r).length = (recordBytes final r).length := by
  simp [storedRow_eq, recordBytes_eq, wrSeq, wraSeq]

/-- Each command of the rows writes one byte (R107). -/
@[simp] theorem storedRows_length (mode : ColorMode) (rows : List (List Word)) :
    (storedRows mode rows).length = (recordsBytes mode rows).length := by
  induction rows with
  | nil => rfl
  | cons r rows ih => simp [storedRows_cons, recordsBytes_cons, ih]

theorem fileSeq_length (hdr : Byte × Byte) {img : Image} (h : img.mayStart = true) :
    (fileSeq hdr img).length = img.commandCount := by
  rw [fileSeq, Image.commandCount, ihdrSeq_eq_chunkSeq]
  split <;>
    simp [rawSeq, palSeq, idatSeq, recordsBytes_length (Image.row_length h), Image.rows_length h] <;>
    omega

/-! ### What a list that does not fault adds to the cursor (R12, R31) -/

/-- The number of bytes a command list appends when it does not fault. -/
def bytesEmittedBy (is : List Instr) : Nat := (is.map bytesEmitted).sum

@[simp] theorem bytesEmittedBy_nil : bytesEmittedBy [] = 0 := rfl

@[simp] theorem bytesEmittedBy_cons (i : Instr) (is : List Instr) :
    bytesEmittedBy (i :: is) = bytesEmitted i + bytesEmittedBy is := List.sum_cons

@[simp] theorem bytesEmittedBy_append (is js : List Instr) :
    bytesEmittedBy (is ++ js) = bytesEmittedBy is + bytesEmittedBy js := by
  simp [bytesEmittedBy]

/-- A sequence of commands that append one byte each. -/
theorem bytesEmittedBy_map {f : Byte → Instr} (hf : ∀ b, bytesEmitted (f b) = 1) (bs : List Byte) :
    bytesEmittedBy (bs.map f) = bs.length := by
  simp [bytesEmittedBy, Function.comp_def, hf]

@[simp] theorem bytesEmittedBy_rawSeq (bs : List Byte) : bytesEmittedBy (rawSeq bs) = bs.length :=
  bytesEmittedBy_map (fun _ => rfl) bs

@[simp] theorem bytesEmittedBy_wrSeq (bs : List Byte) : bytesEmittedBy (wrSeq bs) = bs.length :=
  bytesEmittedBy_map (fun _ => rfl) bs

@[simp] theorem bytesEmittedBy_wraSeq (bs : List Byte) : bytesEmittedBy (wraSeq bs) = bs.length :=
  bytesEmittedBy_map (fun _ => rfl) bs

@[simp] theorem bytesEmittedBy_chunkSeq (tag : Word) (p : List Byte) :
    bytesEmittedBy (chunkSeq tag p) = (chunkBytes tag p).length := by
  simp [chunkSeq, bytesEmitted]
  omega

@[simp] theorem bytesEmittedBy_storedRow (final : Bool) (r : List Byte) :
    bytesEmittedBy (storedRow final r) = (recordBytes final r).length := by
  simp [storedRow_eq, recordBytes_eq]

@[simp] theorem bytesEmittedBy_storedRows (mode : ColorMode) (rows : List (List Word)) :
    bytesEmittedBy (storedRows mode rows) = (recordsBytes mode rows).length := by
  induction rows with
  | nil => rfl
  | cons r rows ih => simp [storedRows_cons, recordsBytes_cons, ih]

@[simp] theorem bytesEmittedBy_idatSeq (hdr : Byte × Byte) (img : Image) :
    bytesEmittedBy (idatSeq hdr img) = (chunkBytes tagDat (idatPayload hdr img)).length := by
  simp [idatSeq, idatPayload, bytesEmitted]
  omega

/-- The commands of `FILE` append as many bytes as the file has (R112). -/
theorem bytesEmittedBy_fileSeq (hdr : Byte × Byte) (img : Image) :
    bytesEmittedBy (fileSeq hdr img) = (fileBytes hdr img).length := by
  rw [fileSeq, fileBytes, ihdrSeq_eq_chunkSeq]
  split <;> simp [palSeq, bytesEmitted]

/-- A list without `CLR` that ends without a fault has moved the cursor by the bytes of its commands. -/
theorem olen_of_execList {is : List Instr} {s t : State} (hclr : .clr ∉ is) (h : execList is s = .next t)
    (ht : t.fault = false) : t.olen.toNat = s.olen.toNat + bytesEmittedBy is := by
  induction is generalizing s with
  | nil => cases h; rfl
  | cons i is ih =>
    obtain ⟨hi, his⟩ := List.ne_and_not_mem_of_not_mem_cons hclr
    obtain ⟨-, hk, hrest⟩ := (execList_cons_iff_of_unfaulted ht).1 h
    rw [ih his hrest, effectOf_olen_toNat hk hi.symm, bytesEmittedBy_cons, Nat.add_assoc]

theorem clr_not_mem_storedRows (mode : ColorMode) (rows : List (List Word)) : .clr ∉ storedRows mode rows := by
  induction rows with
  | nil => nofun
  | cons r rows ih => simp [storedRows_cons, storedRow_eq, wrSeq, wraSeq, ih]

/-- `FILE` issues `CLR` first and never again (R112). -/
theorem clr_not_mem_tail_fileSeq (hdr : Byte × Byte) (img : Image) : .clr ∉ (fileSeq hdr img).tail := by
  rw [fileSeq, ihdrSeq_eq_chunkSeq]
  split <;> simp [rawSeq, chunkSeq, wrSeq, palSeq, idatSeq, clr_not_mem_storedRows]

/-- Settles O55: the leading `CLR` sets the cursor to zero, and the rest moves it by the bytes of the file. -/
theorem fileLengthAndCommandCount : Obligations.FileLengthAndCommandCount := by
  intro hdr img h
  refine ⟨fileBytes_length hdr h, fileSeq_length hdr h, fun s t hx ht => ?_⟩
  have hsplit : fileSeq hdr img = .clr :: (fileSeq hdr img).tail := rfl
  rw [hsplit] at hx
  have holen := olen_of_execList (clr_not_mem_tail_fileSeq hdr img) (execList_effectOf hx ht) ht
  rw [holen, ← bytesEmittedBy_fileSeq, hsplit, bytesEmittedBy_cons]
  rfl

end Sys2Proof.Machine
end

section
/-! PROOFS. The host sequence of a whole file runs to its end: part by part the output grows by that part's bytes
(43_host_sequences.md R107, R109, R112). -/

namespace Sys2Proof.Machine

open Sys2Proof.Safety

/-! ### Inside the image-data chunk (R107, R109) -/

theorem adlerFold_append (q : Half × Half) (as bs : List Byte) :
    adlerFold q (as ++ bs) = adlerFold (adlerFold q as) bs := by
  induction as generalizing q with
  | nil => rfl
  | cons a as ih => exact ih _

section Opened

variable {cap : Offset} {before p : List Byte} {tag len : Word} {pair : Half × Half} {s : State}

/-- Bytes written through the Adler pair into an open chunk, within the declared length and with room (R84, R104). -/
theorem Opened.wraSeq (h : Opened cap before tag len p (some pair) s) (q : List Byte)
    (hlen : p.length + q.length ≤ len.toNat) (hroom : before.length + 8 + p.length + q.length ≤ cap.toNat) :
    ∃ t, execList (wraSeq q) s = .next t ∧ Opened cap before tag len (p ++ q) (some (adlerFold pair q)) t := by
  induction q generalizing p pair s with
  | nil => exact ⟨s, rfl, by rwa [List.append_nil]⟩
  | cons b q ih =>
    rw [List.length_cons] at hlen hroom
    obtain ⟨u, hu, hopen⟩ := h.wrab b (by omega) (by omega)
    obtain ⟨t, ht, hdone⟩ := ih hopen (by simp; omega) (by simp; omega)
    exact ⟨t, by rwa [Machine.wraSeq, List.map_cons, execList_cons hu], by simpa [adlerFold] using hdone⟩

/-- `STOREDROW` writes its record; the pair covers the filter byte and the row (R107). -/
theorem Opened.storedRow (h : Opened cap before tag len p (some pair) s) (final : Bool) (r : List Byte)
    (hlen : p.length + (recordBytes final r).length ≤ len.toNat)
    (hroom : before.length + 8 + p.length + (recordBytes final r).length ≤ cap.toNat) :
    ∃ t, execList (storedRow final r) s = .next t
      ∧ Opened cap before tag len (p ++ recordBytes final r) (some (adlerFold pair (0x00#8 :: r))) t := by
  rw [recordBytes_eq, List.length_append] at hlen hroom
  obtain ⟨u, hu, hheader⟩ := h.wrSeq (recordHeader final r) (by omega) (by omega)
  obtain ⟨t, ht, hdone⟩ := hheader.wraSeq (0x00#8 :: r) (by rw [List.length_append]; omega)
    (by rw [List.length_append]; omega)
  exact ⟨t, by rwa [storedRow_eq, execList_append hu], by rwa [recordBytes_eq, ← List.append_assoc]⟩

/-- The rows in turn write their records; the pair covers the scanlines (R109). -/
theorem Opened.storedRows (h : Opened cap before tag len p (some pair) s) (mode : ColorMode) (rows : List (List Word))
    (hlen : p.length + (recordsBytes mode rows).length ≤ len.toNat)
    (hroom : before.length + 8 + p.length + (recordsBytes mode rows).length ≤ cap.toNat) :
    ∃ t, execList (storedRows mode rows) s = .next t
      ∧ Opened cap before tag len (p ++ recordsBytes mode rows) (some (adlerFold pair (scanlines mode rows))) t := by
  induction rows generalizing p pair s with
  | nil => exact ⟨s, rfl, by rwa [recordsBytes, List.append_nil]⟩
  | cons r rows ih =>
    rw [recordsBytes_cons, List.length_append] at hlen hroom
    obtain ⟨u, hu, hrow⟩ := h.storedRow rows.isEmpty (rowBytes mode r) (by omega) (by omega)
    obtain ⟨t, ht, hdone⟩ := ih hrow (by rw [List.length_append]; omega) (by rw [List.length_append]; omega)
    refine ⟨t, by rwa [storedRows_cons, execList_append hu], ?_⟩
    rwa [recordsBytes_cons, ← List.append_assoc, scanlines, List.flatMap_cons, adlerFold_append]

end Opened

/-! ### From chunk to chunk (R105, R109, R112) -/

section Idle

variable {cap : Offset} {out : List Byte} {s : State}

/-- Raw bytes outside a chunk, with room (R81, R104). -/
theorem Idle.rawSeq (h : Idle cap out s) (q : List Byte) (hroom : (out ++ q).length ≤ cap.toNat) :
    ∃ t, execList (rawSeq q) s = .next t ∧ Idle cap (out ++ q) t := by
  induction q generalizing out s with
  | nil => exact ⟨s, rfl, by rwa [List.append_nil]⟩
  | cons b q ih =>
    rw [List.append_cons] at hroom ⊢
    obtain ⟨u, hu, hidle⟩ := h.rawb b (by simp at hroom; omega)
    obtain ⟨t, ht, hdone⟩ := ih hidle hroom
    exact ⟨t, by rwa [Machine.rawSeq, List.map_cons, execList_cons hu], hdone⟩

/-- `IDAT` appends the chunk of its payload: the declared length is that of the payload it writes (R108, R109). -/
theorem Idle.idatSeq (h : Idle cap out s) (hdr : Byte × Byte) {img : Image} (himg : img.mayStart = true)
    (hroom : out.length + 12 + (idatPayload hdr img).length ≤ cap.toNat) :
    ∃ t, execList (idatSeq hdr img) s = .next t ∧ Idle cap (out ++ chunkBytes tagDat (idatPayload hdr img)) t := by
  have hsum : (idatPayload hdr img).length = 2 + (recordsBytes img.mode img.rows).length + 4 := by
    simp [idatPayload]
    omega
  have hlen : (BitVec.ofNat 32 img.idatLength).toNat = 2 + (recordsBytes img.mode img.rows).length + 4 := by
    have hpayload := idatPayload_length hdr himg
    rw [← hsum, ← hpayload]
    exact declaredLength_toNat (hpayload ▸ Image.idatLength_lt himg)
  rw [hsum] at hroom
  obtain ⟨s₁, h₁, hbegun⟩ := h.begch tagDat (BitVec.ofNat 32 img.idatLength) (by omega)
  obtain ⟨s₂, h₂, hinit⟩ := hbegun.adlinit
  obtain ⟨s₃, h₃, hheader⟩ := hinit.wrSeq [hdr.1, hdr.2] (by simp [hlen]) (by simp; omega)
  obtain ⟨s₄, h₄, hrows⟩ := hheader.storedRows img.mode img.rows (by simp [hlen]) (by simp; omega)
  obtain ⟨s₅, h₅, hsummed⟩ := hrows.wradl (by simp [hlen]; omega) (by simp; omega)
  obtain ⟨s₆, h₆, hended⟩ := hsummed.endch (by simp [hlen]; omega) (by simp; omega)
  refine ⟨s₆, ?_, ?_⟩
  · have hseq : Machine.idatSeq hdr img = [.begch tagDat (BitVec.ofNat 32 img.idatLength), .adlinit]
        ++ (wrSeq [hdr.1, hdr.2] ++ (storedRows img.mode img.rows ++ [.wradl, .endch])) := rfl
    rw [hseq, List.cons_append, execList_cons h₁, List.singleton_append, execList_cons h₂, execList_append h₃,
      execList_append h₄, execList_cons h₅, execList_cons h₆, execList_nil]
  · rw [chunkBytes, idatPayload_length hdr himg]
    exact hended

/-- The palette chunks, in Palette mode only (R111, R112). -/
def paletteChunks (img : Image) : List Byte :=
  if img.mode = .palette then
    chunkBytes tagPal (paletteBytes img.palette) ++ chunkBytes tagTrn (alphaBytes img.palette)
  else []

theorem Idle.paletteSeq (h : Idle cap out s) {img : Image} (himg : img.mayStart = true)
    (hroom : (out ++ paletteChunks img).length ≤ cap.toNat) :
    ∃ t, execList (if img.mode = .palette then palSeq img.palette else []) s = .next t
      ∧ Idle cap (out ++ paletteChunks img) t := by
  have hcount := Image.palette_length_le himg
  by_cases hmode : img.mode = .palette
  · simp only [paletteChunks, if_pos hmode, List.length_append, chunkBytes_length, paletteBytes_length,
      alphaBytes_length] at hroom ⊢
    obtain ⟨u, hu, hpal⟩ := h.chunkSeq tagPal (p := paletteBytes img.palette) (by simp; omega) (by simp; omega)
    obtain ⟨t, ht, htrn⟩ := hpal.chunkSeq tagTrn (p := alphaBytes img.palette) (by simp; omega) (by simp; omega)
    exact ⟨t, by rwa [palSeq, execList_append hu], by rwa [← List.append_assoc]⟩
  · simp only [paletteChunks, if_neg hmode, List.append_nil]
    exact ⟨s, rfl, h⟩

/-- `FILE` outside a chunk, with room for the file's bytes (R112). -/
theorem Idle.fileSeq (h : Idle cap out s) (hdr : Byte × Byte) {img : Image} (himg : img.mayStart = true)
    (hroom : (fileBytes hdr img).length ≤ cap.toNat) :
    ∃ t, execList (fileSeq hdr img) s = .next t ∧ Idle cap (fileBytes hdr img) t := by
  have hbytes : fileBytes hdr img = signature ++ chunkBytes tagHdr (ihdrPayload img) ++ paletteChunks img
      ++ chunkBytes tagDat (idatPayload hdr img) ++ chunkBytes tagEnd [] := rfl
  rw [hbytes] at hroom ⊢
  simp only [List.length_append, signature_length, chunkBytes_length, ihdrPayload_length, List.length_nil] at hroom
  obtain ⟨s₁, h₁, hempty⟩ := h.clr
  obtain ⟨s₂, h₂, hsigned⟩ := hempty.rawSeq signature (by simp; omega)
  obtain ⟨s₃, h₃, hheaded⟩ := hsigned.chunkSeq tagHdr (p := ihdrPayload img) (by simp) (by simp; omega)
  obtain ⟨s₄, h₄, hpalette⟩ := hheaded.paletteSeq himg (by simp; omega)
  obtain ⟨s₅, h₅, himage⟩ := hpalette.idatSeq hdr himg (by simp; omega)
  obtain ⟨s₆, h₆, hended⟩ := himage.chunkSeq tagEnd (p := []) (by simp) (by simp; omega)
  refine ⟨s₆, ?_, hended⟩
  rw [Machine.fileSeq, ihdrSeq_eq_chunkSeq]
  simp only [List.append_assoc]
  rw [List.singleton_append, execList_cons h₁, execList_append h₂, execList_append h₃, execList_append h₄,
    execList_append h₅, h₆]

end Idle

/-- Settles O56: the sequence runs through, and outside a chunk the output is what the framer's state says. -/
theorem fileSequenceYieldsTheFile : Obligations.FileSequenceYieldsTheFile := by
  intro s hdr img hinv hs hc himg hroom
  have hidle : Idle s.obufCap (outputBytes s) s := ⟨hinv.dense, hs, hc, rfl, rfl⟩
  obtain ⟨t, ht, hdone⟩ := hidle.fileSeq hdr himg (by rwa [fileBytes_length hdr himg])
  exact ⟨t, ht, by rw [complete, hdone.fault, hdone.closed]; rfl, hdone.out⟩

end Sys2Proof.Machine
end

section
/-! PROOFS. Fault entry: the cause a command raises is the first in the order of R133 whose condition holds, and a word that
raises changes FAULT and CAUSE only (60_exceptions.md R131, R133, R134). -/

namespace Sys2Proof.Machine

open Sys2Proof.Safety

/-! ### The first failing check is the first condition that holds (R131, R133) -/

/-- Each condition of the table of R131 that holds is a check of the command that fails. -/
theorem check_of_faultCondition {i : Instr} {k : Cause} {s : State} (h : faultCondition k i s) :
    (true, k) ∈ checksOf i s := by
  cases k with
  | illegal => exact h.elim
  | proto => cases i <;> simp_all [faultCondition, checksOf]
  | uninit => cases i <;> simp_all [faultCondition, checksOf]
  | len => cases i <;> simp_all [faultCondition, checksOf, State.chunkFull, State.lacksLength_eq_true]
  | ovf => cases i <;> simp_all [faultCondition, checksOf, bytesEmitted, State.lacksRoom_eq_true]

/-- The causes of a row of the matrix stand in the order of R133, which is that of the codes. -/
theorem raisable_pairwise (i : Instr) : (raisable i).Pairwise (·.code.toNat ≤ ·.code.toNat) := by
  cases i <;> simp [raisable, Cause.code]

/-- Among checks in the order of the codes, the one raised has the least code of those that fail. -/
theorem code_le_of_firstRaised {cs : List (Bool × Cause)} {j k : Cause}
    (hcs : (cs.map Prod.snd).Pairwise (·.code.toNat ≤ ·.code.toNat)) (hj : firstRaised cs = some j)
    (hk : (true, k) ∈ cs) : j.code.toNat ≤ k.code.toNat := by
  induction cs with
  | nil => cases hj
  | cons c cs ih =>
    obtain ⟨fails, l⟩ := c
    rw [List.map_cons, List.pairwise_cons] at hcs
    obtain ⟨hl, hcs⟩ := hcs
    rw [List.mem_cons] at hk
    cases fails with
    | true =>
      obtain rfl : l = j := by simpa using hj
      rcases hk with hk | hk
      · rw [(Prod.mk.inj hk).2]
      · exact hl k (List.mem_map_of_mem hk)
    | false => exact ih hcs (by simpa using hj) (hk.resolve_left nofun)

/-- The causes before `k` in the priority order are those of lower code (R131, R133). -/
theorem mem_before_iff (j k : Cause) : j ∈ priority.takeWhile (· ≠ k) ↔ j.code.toNat < k.code.toNat := by
  cases j <;> cases k <;> decide

/-- The first condition that holds in the order of R133 is the first check that fails. -/
theorem firstRaised_of_first_condition {i : Instr} {k : Cause} {s : State} (hk : faultCondition k i s)
    (hfirst : ∀ j ∈ priority.takeWhile (· ≠ k), ¬ faultCondition j i s) : firstRaised (checksOf i s) = some k := by
  cases hj : firstRaised (checksOf i s) with
  | none => exact absurd hk ((checks_pass_iff i s).1 hj k)
  | some j =>
    have hjk : j.code.toNat ≤ k.code.toNat :=
      code_le_of_firstRaised (checksOf_causes i s ▸ raisable_pairwise i) hj (check_of_faultCondition hk)
    have hkj : ¬ j.code.toNat < k.code.toNat := fun hlt =>
      hfirst j ((mem_before_iff j k).2 hlt) (faultCondition_of_raised hj)
    rw [Cause.code_injective (BitVec.eq_of_toNat_eq (Nat.le_antisymm hjk (Nat.not_lt.1 hkj)))]

/-! ### The statements about fault entry -/

/-- A word after which an unfaulted block has faulted has raised one of the five causes and done nothing else (R134). -/
theorem raised_of_issue_faults {w : CmdWord} {s t : State} (hs : s.fault = false) (h : issue w s = .next t)
    (ht : t.fault = true) : ∃ k, t = s.raise k := by
  have heffect : EventEffect s (.cmd w) t := takeHostEvent_cases h
  cases heffect with
  | ran hd hx =>
    rcases exec_cases hx with ⟨hf, -⟩ | ⟨-, k, -, rfl⟩ | ⟨-, -, rfl⟩
    · exact absurd (hs.symm.trans hf) nofun
    · exact ⟨k, rfl⟩
    · rw [(effectOf_frame _ s).1] at ht
      exact absurd (hs.symm.trans ht) nofun
  | ignored hd hf => exact absurd (hs.symm.trans hf) nofun
  | raised hd hf => exact ⟨.illegal, rfl⟩

/-- Settles O14. -/
theorem faultEntryIsPrecise : Obligations.FaultEntryIsPrecise := by
  intro w s t hs h ht
  obtain ⟨k, rfl⟩ := raised_of_issue_faults hs h ht
  exact ⟨⟨k, rfl⟩, rfl⟩

/-- Settles O15: the checks of a command stand for the conditions of R131, in the order of R133. -/
theorem firstFaultConditionIsReported : Obligations.FirstFaultConditionIsReported := by
  refine ⟨rfl, rfl, rfl, rfl, rfl, fun i s hs => ⟨fun hnone => ?_, fun k hk hfirst => ?_⟩,
    fun w e s hd hs => issue_illegal_unfaulted hd hs, fun w s t hs h ht => ?_⟩
  · exact ⟨_, exec_done hs ((checks_pass_iff i s).2 hnone), (effectOf_frame i s).1.trans hs⟩
  · exact exec_raises hs (firstRaised_of_first_condition hk hfirst)
  · obtain ⟨k, rfl⟩ := raised_of_issue_faults hs h ht
    exact k.code_range

end Sys2Proof.Machine
end

section
/-! PROOFS. The faulted block ignores every word and only the reset input leaves it (60_exceptions.md R135, R136), and the
idle block (R138, 70_reset_and_hazards.md R151). -/

namespace Sys2Proof.Machine

open Sys2Proof.Safety

/-- A faulted block ignores every command word, legal or not (R135). -/
theorem issue_faulted (w : CmdWord) {s : State} (hf : s.fault = true) : issue w s = .next s := by
  cases hd : decode w with
  | command i => rw [issue_command hd, exec_eq_command, command_faulted hf]
  | illegal e => rw [issue_illegal hd, illegalWord, command_faulted hf]

/-- On a faulted block every host event but the reset input keeps FAULT and CAUSE (R135, R136). -/
theorem EventEffect.keeps_fault {e : HostEvent} {s t : State} (h : EventEffect s e t) (hf : s.fault = true)
    (he : e ≠ .rst) : t.fault = s.fault ∧ t.cause = s.cause := by
  cases h with
  | ran hd hx =>
    rw [exec_eq_command, command_faulted hf, Host.Outcome.next.injEq] at hx
    rw [hx]
    exact ⟨rfl, rfl⟩
  | raised hd hs => exact absurd (hs.symm.trans hf) nofun
  | reset => exact absurd rfl he
  | ignored | status | buffer => exact ⟨rfl, rfl⟩

/-- Settles O9: words are ignored, and the two read ports do not look at FAULT. -/
theorem faultedBlockIgnoresEveryWord : Obligations.FaultedBlockIgnoresEveryWord := by
  refine fun s hf => ⟨fun w rest hp => ?_, fun n rest v hp hv => step_statusRead_specified hp hv,
    fun a rest hp hd ha => (bufferReadReturnsTheAppendedByte s a rest hp hd).1 ha, ?_⟩
  · rw [step_event hp]
    exact issue_faulted w (s := { s with port := rest }) hf
  · simp [runOutput, complete, hf]

/-- Settles O10. -/
theorem onlyResetLeavesTheFaultedState : Obligations.OnlyResetLeavesTheFaultedState := by
  refine fun s hf => ⟨fun t hstep hleft => ?_, fun rest hp => ⟨_, step_event hp, rfl, rfl, rfl, fun _ => rfl⟩⟩
  have hmoved : ¬ (t.fault = s.fault ∧ t.cause = s.cause) := fun ⟨htf, htc⟩ =>
    hleft.elim (fun h => absurd (h.symm.trans (htf.trans hf)) nofun) (fun h => h htc)
  rcases step_cases hstep with ⟨-, rfl⟩ | ⟨e, rest, hp, he⟩
  · exact absurd ⟨rfl, rfl⟩ hmoved
  · by_cases hrst : e = .rst
    · exact ⟨rest, hrst ▸ hp⟩
    · exact absurd (he.keeps_fault hf hrst) hmoved

/-- Settles O11. -/
theorem idleBlockDoesNothing : Obligations.IdleBlockDoesNothing :=
  fun _ => step_idle

end Sys2Proof.Machine
end

section
/-! PROOFS. A run of the words of a command list is the command list (60_exceptions.md R143, 20_memory.md R38): each step
takes the next word, decodes it and executes its command, whatever still waits on the port. -/

namespace Sys2Proof.Machine

open Sys2Proof.Safety

/-- The state with these host events waiting. -/
def State.withPort (s : State) (port : List HostEvent) : State := { s with port := port }

/-- No check of a command looks at the port. -/
theorem checksOf_withPort (i : Instr) (s : State) (port : List HostEvent) :
    checksOf i (s.withPort port) = checksOf i s := by
  cases i <;> rfl

/-- No effect of a command looks at the port or writes it. -/
theorem effectOf_withPort (i : Instr) (s : State) (port : List HostEvent) :
    effectOf i (s.withPort port) = (effectOf i s).withPort port := by
  cases i <;> rfl

/-- A command does the same whatever waits on the port, and leaves it waiting (R38). -/
theorem exec_withPort (i : Instr) (s : State) :
    ∃ t : State, ∀ port, exec i (s.withPort port) = .next (t.withPort port) := by
  cases hf : s.fault with
  | true => exact ⟨s, fun port => by rw [exec_eq_command, command_faulted (s := s.withPort port) hf]⟩
  | false =>
    cases hk : firstRaised (checksOf i s) with
    | some k =>
      exact ⟨s.raise k, fun port => exec_raises (s := s.withPort port) hf (by rw [checksOf_withPort, hk])⟩
    | none =>
      refine ⟨effectOf i s, fun port => ?_⟩
      rw [← effectOf_withPort]
      exact exec_done (s := s.withPort port) hf (by rw [checksOf_withPort, hk])

/-- A step with the word of a command waiting first executes the command on what is left of the port (R38, R51). -/
theorem step_encode (i : Instr) (s : State) (rest : List HostEvent) :
    step (s.withPort (.cmd (encode i) :: rest)) = exec i (s.withPort rest) :=
  stepRunsTheDecodedCommand (s.withPort (.cmd (encode i) :: rest)) (encode i) rest i rfl (decode_encode i)

/-- As many steps as words of a command list wait execute the list and leave no event waiting. -/
theorem core_run_words (is : List Instr) (s : State) :
    core.run is.length (s.withPort ((is.map encode).map .cmd)) = execList is (s.withPort []) := by
  induction is generalizing s with
  | nil => rfl
  | cons i is ih =>
    obtain ⟨t, ht⟩ := exec_withPort i s
    rw [execList_cons (ht []), ← ih t]
    exact core_run_next is.length ((step_encode i s _).trans (ht _))

/-- Settles O58: in the reset state the words of the list are all that waits. -/
theorem runOfTheWordsIsTheCommandList : Obligations.RunOfTheWordsIsTheCommandList := by
  intro cap is
  rw [run, List.length_map]
  exact core_run_words is (resetWithCapacity cap)

end Sys2Proof.Machine
end

section
/-! PROOFS. The reset input (70_reset_and_hazards.md R150): whatever state it finds, it leaves the condition of R23. -/

namespace Sys2Proof.Machine

/-- After the reset input every status register reads as it does in the reset state (R23, R150). -/
@[simp] theorem State.applyReset_statusValue (n : BitVec 3) (s : State) :
    s.applyReset.statusValue n = State.reset.statusValue n := rfl

/-- Settles O12: the reset input gives every piece of state the value of the reset state, which is the condition of R23;
the port and the capacity stay (log entry 3). -/
theorem resetInputLeavesTheResetState : Obligations.ResetInputLeavesTheResetState := by
  intro s rest hp
  obtain ⟨hdlen, hwcnt, holen, hobuf, hchopen, hcrcv, hadlv, hfault, hcause, hcrcval, hadlval⟩ :=
    stateAfterResetIsThatOfR23
  refine ⟨State.applyReset { s with port := rest }, step_event hp, holen, hobuf, hchopen, hcrcv, hadlv, hfault, hcause,
    hdlen, hwcnt, ?_, ?_, State.applyReset_port _, State.applyReset_obufCap _⟩
  · rw [State.applyReset_statusValue, hcrcval]
  · rw [State.applyReset_statusValue, hadlval]

end Sys2Proof.Machine
end

section
/-! PROOFS. The CRC table (40_crc.md R60): the generation rule gives it, and it is the table listed. -/

namespace Sys2Proof.Machine

/-! ### The sequence of the generation rule -/

/-- `crcBitSteps` recurses on the word; the sequence `g` of R60 grows by one step at its end. -/
theorem crcBitSteps_succ_eq_crcBitStep (k : Nat) (g : Word) :
    crcBitSteps (k + 1) g = crcBitStep (crcBitSteps k g) := by
  induction k generalizing g with
  | zero => rfl
  | succ k ih => exact ih (crcBitStep g)

theorem crcBitSteps_succ_of_bit_set (k : Nat) (g : Word) (h : (crcBitSteps k g).getLsbD 0 = true) :
    crcBitSteps (k + 1) g = crcBitSteps k g >>> 1 ^^^ crcPoly :=
  (crcBitSteps_succ_eq_crcBitStep k g).trans (if_pos h)

theorem crcBitSteps_succ_of_bit_clear (k : Nat) (g : Word) (h : (crcBitSteps k g).getLsbD 0 = false) :
    crcBitSteps (k + 1) g = crcBitSteps k g >>> 1 :=
  (crcBitSteps_succ_eq_crcBitStep k g).trans (if_neg (ne_true_of_eq_false h))

/-! ### The listing -/

/-- `len` entries of the table in the order of R60, from `TBL[start]` on. -/
def tblEntries (start len : Nat) : List Word := (List.range' start len).map fun n => tbl (BitVec.ofNat 8 n)

@[simp] theorem length_tblEntries (start len : Nat) : (tblEntries start len).length = len := by
  simp [tblEntries]

theorem tblEntries_append (start m n : Nat) :
    tblEntries start m ++ tblEntries (start + m) n = tblEntries start (m + n) := by
  rw [tblEntries, tblEntries, ← List.map_append, List.range'_append_1, tblEntries]

theorem getElem?_tblEntries_zero {len : Nat} {n : Byte} (h : n.toNat < len) :
    (tblEntries 0 len)[n.toNat]? = some (tbl n) := by
  simp [tblEntries, List.getElem?_range' h]

theorem tblListing0_eq_tblEntries : tblListing0 = tblEntries 0 64 := by decide

theorem tblListing1_eq_tblEntries : tblListing1 = tblEntries 64 64 := by decide

theorem tblListing2_eq_tblEntries : tblListing2 = tblEntries 128 64 := by decide

theorem tblListing3_eq_tblEntries : tblListing3 = tblEntries 192 64 := by decide

/-- The four quarters, each checked by evaluating the generation rule, join to the whole table. -/
theorem tblListing_eq_tblEntries : tblListing = tblEntries 0 256 := by
  rw [tblListing, tblListing0_eq_tblEntries, tblListing1_eq_tblEntries, tblListing2_eq_tblEntries,
    tblListing3_eq_tblEntries, tblEntries_append 0 64 64, tblEntries_append 0 128 64, tblEntries_append 0 192 64]

/-- Settles O38: the sequence is `crcBitSteps` from the zero-extended index, and the listing is read off `tblEntries`. -/
theorem crcTableIsTheListing : Obligations.CrcTableIsTheListing := by
  refine ⟨fun n => ⟨fun k => crcBitSteps k (n.setWidth 32), rfl, fun k _ => crcBitSteps_succ_of_bit_set k _,
    fun k _ => crcBitSteps_succ_of_bit_clear k _, rfl⟩, ?_, fun n => ?_⟩
  · rw [tblListing_eq_tblEntries, length_tblEntries]
  · rw [tblListing_eq_tblEntries, getElem?_tblEntries_zero n.isLt]

end Sys2Proof.Machine
end
